-- ==== Sys2Proof/Word.lean ====
section
/-! DEFINITION. The values on the block's wires: 2-valued bit sequences, 4-valued simulator wires, and the names of
the ports (spec/00_scope.md R12, R13; spec/30_encoding.md R35, R36, R39). -/

namespace Sys2Proof

/-- An ordered sequence of bits, as the spec writes data `[d0, d1, …]` and codewords `[b@1, b@2, …]` (00_scope.md,
writing conventions). Element i is vector bit i; so codeword position p is element p − 1 and data index j is
element j (R12, R28). -/
abbrev Bits := List Bool

/-- One wire of a 4-valued simulation. The hardware's own inputs are `zero` and `one`; `x` (unknown) and `z`
(high impedance) exist so that the model can refuse them (R39). -/
inductive Logic where
  | zero
  | one
  | x
  | z
deriving DecidableEq, Repr

/-- A vector of wires as the environment drives it, element i on vector bit i. -/
abbrev LogicVec := List Logic

/-- The ports (and the testbench operand) that a refusal may name (R35, R36, R62). -/
inductive Port where
  /-- `rst`, present when PIPE = 1. -/
  | rst
  /-- `in_valid` of either unit. -/
  | inValid
  /-- `data_in` of hamming_encoder, K bits. -/
  | dataIn
  /-- `code_out` of hamming_encoder, N bits. -/
  | codeOut
  /-- `code_in` of hamming_decoder, N bits. -/
  | codeIn
  /-- `data_out` of hamming_decoder, K bits. -/
  | dataOut
  /-- The operand c of the testbench function FLIP, N bits; no port of the block. -/
  | flipOperand
deriving DecidableEq, Repr

end Sys2Proof
end

