-- ==== Sys2Proof/Config.lean ====
section
/-! DEFINITION. What elaboration fixes: the redundancy R, the two units' PIPE, the derived N and K
(spec/00_scope.md R5 to R11; spec/10_state.md R15); and the free values that the spec leaves open. -/

namespace Sys2Proof

/-- The codeword length N = 2^R − 1 (R6). -/
def codeN (R : Nat) : Nat := 2 ^ R - 1

/-- The data length K = N − R (R7). -/
def dataK (R : Nat) : Nat := codeN R - R

/-- The elaboration-time parameters of a pair `hamming_encoder #(R, encPIPE)`, `hamming_decoder #(R, decPIPE)`. They
are raw naturals, so that an illegal choice can be written down and is refused (R9, R67). R is one for both units:
it is "the same for the encoder and the decoder that talk to each other" (R5). R has no upper bound (R10). Each
unit has its own PIPE parameter (R35, R36; notes/assumptions/14.md), and PIPE has the default 0 (R11): an instance for
which only R is given, `{ R := r }`, is combinational. -/
structure Config where
  R : Nat
  encPIPE : Nat := 0
  decPIPE : Nat := 0
deriving DecidableEq, Repr

/-- N of an instance. -/
abbrev Config.N (c : Config) : Nat := codeN c.R

/-- K of an instance. -/
abbrev Config.K (c : Config) : Nat := dataK c.R

/-- The configurations that elaborate (R9, R11, R67). -/
abbrev Config.Legal (c : Config) : Prop :=
  2 ≤ c.R ∧ (c.encPIPE = 0 ∨ c.encPIPE = 1) ∧ (c.decPIPE = 0 ∨ c.decPIPE = 1)

/-- FREE VALUE: the n-th draw. It has no body, so nothing can be proved about which bit it is. It stands for every bit
the spec leaves at `any value` (spec/93_implementation_defined.md: "a draw under no law"): unspecified registers
(R23, R78) and X or Z on a vector that no unit samples (R39). notes/assumptions/3.md, 9.md. -/
opaque Config.freeBit : Nat → Bool

/-- DESIGN CHOICE (notes/assumptions/1.md): the configuration of `State.reset` and of `decodeTableWord`. R = 3 is the
instance of the spec's worked examples and of the opcode table's encodings; PIPE = 1 is the only form that has a
reset (R75), so it is given here in place of the default 0 of R11. Nothing else in the model depends on it. -/
def Config.atReset : Config := { R := 3, encPIPE := 1, decPIPE := 1 }

end Sys2Proof
end

