-- ==== Sys2Proof/Syntax.lean ====
section
/-! DEFINITION. The operations (one constructor of `Instr` per row of spec/opcode_table.json), the port words that
select them, and what the environment presents to the block in one step (spec/30_encoding.md R35 to R38, R45). -/

namespace Sys2Proof

/-- The operations, which play the role of instructions (00_scope.md, glossary). -/
inductive Instr where
  /-- ENCODE (R49): one hamming_encoder transaction on `data_in` = d. -/
  | encode (d : Bits)
  /-- DECODE (R58): one hamming_decoder transaction on `code_in` = c. -/
  | decode (c : Bits)
  /-- FLIP (R62), testbench only: invert the bit of c at the 1-based position pos. -/
  | flip (c : Bits) (pos : Nat)
deriving DecidableEq, Repr

/-- A word that selects an operation. There is no opcode field: the unit that receives the vector is the selection
(R38). The vector is 4-valued and of any width; decoding refuses what the unit cannot take. -/
inductive PortWord where
  /-- A vector on `data_in` of hamming_encoder. -/
  | encoderPort (dataIn : LogicVec)
  /-- A vector on `code_in` of hamming_decoder. -/
  | decoderPort (codeIn : LogicVec)
  /-- A call of the testbench function FLIP; it has no hardware encoding (R62). -/
  | testbenchCall (c : LogicVec) (pos : Nat)
deriving DecidableEq, Repr

/-- What the environment drives onto hamming_encoder's input ports (R35). At PIPE = 0 there is no `rst` port and the
field is not looked at. -/
structure EncDrive where
  rst : Logic
  inValid : Logic
  dataIn : LogicVec
deriving DecidableEq, Repr

/-- What the environment connects to hamming_decoder's input ports (R36). -/
inductive DecDrive where
  /-- The environment drives the ports itself. -/
  | ports (rst inValid : Logic) (codeIn : LogicVec)
  /-- `in_valid` is wired to the encoder's `out_valid` and `code_in` to its `code_out` (R81, last point), the latter
  through the testbench's FLIP at a position if one is given (95_test_vectors.md, Program 3). -/
  | linked (rst : Logic) (flipAt : Option Nat)
deriving DecidableEq, Repr

/-- What the environment does in one step: it presents inputs, and at PIPE = 1 the unit's `clk` then has one rising
edge (R22); or it calls the testbench function. -/
inductive Stimulus where
  /-- New inputs on the encoder alone, with one rising edge of its `clk` if it has one. -/
  | encoder (e : EncDrive)
  /-- New inputs on the decoder alone, with one rising edge of its `clk` if it has one. -/
  | decoder (d : DecDrive)
  /-- New inputs on both units, with one rising edge of a `clk` they share. -/
  | both (e : EncDrive) (d : DecDrive)
  /-- A testbench call of FLIP. -/
  | testbench (c : LogicVec) (pos : Nat)
deriving DecidableEq, Repr

end Sys2Proof
end

