-- ==== Sys2Proof/WellFormed.lean ====
section
/-! DEFINITION. Which operations an instance of redundancy R can take at all: the operand's width is the port's
(spec/30_encoding.md R37; spec/60_exceptions.md R68). -/

namespace Sys2Proof

/-- The width the spec gives the operand vector of each operation (R37, R62). -/
def Instr.operandWidth (R : Nat) : Instr → Nat
  | .encode _ => dataK R
  | .decode _ => codeN R
  | .flip _ _ => codeN R

/-- The operand vector of an operation. -/
def Instr.operand : Instr → Bits
  | .encode d => d
  | .decode c => c
  | .flip c _ => c

/-- An operation is well formed on an instance of redundancy R when its operand has the port's width. Every 2-valued
vector of that width is legal (R38). A FLIP position outside [1, N] is well formed: FLIP itself raises
PositionOutOfRange (R62). -/
def Instr.wellFormed (R : Nat) (i : Instr) : Bool :=
  i.operand.length == i.operandWidth R

end Sys2Proof
end

