-- ==== Sys2Proof/Decode.lean ====
section
/-! DEFINITION. From wires to operations and back: reading a 4-valued vector, decoding the port words, and the encoder
(spec/30_encoding.md R37 to R39, R41; spec/60_exceptions.md R68, R69). At the end, the one-number form in which the
host asks about opcode-table rows. -/

namespace Sys2Proof

/-- Why a port word is no operation of an instance. -/
inductive DecodeError where
  /-- The vector is not as wide as the port (R37, R68). -/
  | lengthMismatch (port : Port) (expected actual : Nat)
  /-- A sampled wire holds X or Z (R39, R69). -/
  | invalidBitValue (port : Port)
deriving DecidableEq, Repr

/-- The bit a wire carries, none for X and Z (R39). -/
def Logic.toBool? : Logic → Option Bool
  | .zero => some false
  | .one => some true
  | .x => none
  | .z => none

/-- The wire that carries a bit. -/
def Logic.ofBool : Bool → Logic
  | false => .zero
  | true => .one

/-- The bits a vector carries, none if any wire is X or Z. -/
def toBits? : LogicVec → Option Bits
  | [] => some []
  | b :: v =>
    match b.toBool?, toBits? v with
    | some d, some ds => some (d :: ds)
    | _, _ => none

/-- The wires that carry a bit sequence. -/
def ofBits (d : Bits) : LogicVec := d.map Logic.ofBool

/-- Read a vector that a unit samples: the width first (it is an elaboration check, R70), then the bit values. -/
def readVector (port : Port) (width : Nat) (v : LogicVec) : Except DecodeError Bits :=
  if v.length ≠ width then .error (.lengthMismatch port width v.length)
  else
    match toBits? v with
    | some d => .ok d
    | none => .error (.invalidBitValue port)

/-- The operation a port word selects on an instance of redundancy R. The unit alone selects it, and every 2-valued
vector of the right width is legal (R38). -/
def decodeWord (R : Nat) : PortWord → Except DecodeError Instr
  | .encoderPort v => (readVector .dataIn (dataK R) v).map .encode
  | .decoderPort v => (readVector .codeIn (codeN R) v).map .decode
  | .testbenchCall v pos => (readVector .flipOperand (codeN R) v).map (.flip · pos)

/-- The port word of an operation: data bit j on `data_in[j]` (R41), codeword position p on `code_in[p − 1]` (R40). -/
def encodeWord : Instr → PortWord
  | .encode d => .encoderPort (ofBits d)
  | .decode c => .decoderPort (ofBits c)
  | .flip c pos => .testbenchCall (ofBits c) pos

/-- The stimulus that presents a port word as a transaction: `in_valid` = 1 and no reset (R45: ENC and DEC). -/
def PortWord.stimulus : PortWord → Stimulus
  | .encoderPort v => .encoder { rst := .zero, inValid := .one, dataIn := v }
  | .decoderPort v => .decoder (.ports .zero .one v)
  | .testbenchCall v pos => .testbench v pos

/-! ## Numbers for vectors, and the host's one-number form -/

/-- The width-bit vector of a port value written as a number (00_scope.md, writing conventions). -/
def bitsOfNat (width n : Nat) : Bits := (List.range width).map n.testBit

/-- The number of a vector: bit i has weight 2^i. -/
def bitsToNat : Bits → Nat
  | [] => 0
  | b :: v => b.toNat + 2 * bitsToNat v

/-- DESIGN CHOICE (notes/assumptions/12.md). The hardware has no opcode bits, so one number cannot say which unit
receives it. For the host's questions only, the model puts a unit number above the N bits of the vector: 0 is
hamming_encoder, 1 is hamming_decoder, and k + 2 is the testbench's FLIP at position k. A value on the encoder that
does not fit in K bits is an N-bit vector, which the encoder refuses. -/
def tableWord (R nbits w : Nat) : PortWord :=
  let w := w % 2 ^ nbits
  let v := w % 2 ^ codeN R
  match w / 2 ^ codeN R with
  | 0 => if v < 2 ^ dataK R then .encoderPort (ofBits (bitsOfNat (dataK R) v))
         else .encoderPort (ofBits (bitsOfNat (codeN R) v))
  | 1 => .decoderPort (ofBits (bitsOfNat (codeN R) v))
  | k + 2 => .testbenchCall (ofBits (bitsOfNat (codeN R) v)) k

/-- The number that `tableWord` reads as an operation. -/
def encodeTableWord (R : Nat) : Instr → Nat
  | .encode d => bitsToNat d
  | .decode c => bitsToNat c + 2 ^ codeN R
  | .flip c pos => bitsToNat c + 2 ^ codeN R * (pos + 2)

/-- The host's question: the operation the decoder reads from a number, on the instance of `State.reset`. -/
def decodeTableWord (nbits w : Nat) : Option Instr :=
  match decodeWord Config.atReset.R (tableWord Config.atReset.R nbits w) with
  | .ok i => some i
  | .error _ => none

end Sys2Proof
end

