-- ==== Sys2Proof/Machine/State.lean ====
section
/-! DEFINITION. The machine's state as plain data, its stops, and its state after reset (spec/10_state.md;
spec/60_exceptions.md R65; spec/70_reset_and_hazards.md R75 to R79). -/

namespace Sys2Proof.Machine

/-- The elaboration rule a parameter breaks (R67: "R >= 2"; "PIPE in 0, 1"). -/
inductive ParameterRule where
  | rAtLeastTwo
  | pipeZeroOrOne
deriving DecidableEq, Repr

/-- How the testbench can fail. The hardware itself raises nothing while it runs (R66). -/
inductive Fault where
  /-- Cause 3. Raised by FLIP, called or on the link wire, when pos is outside [lo, hi] = [1, N] (R62). It is a fault
  of the testbench step, not a hardware event. Safe: the spec names exactly this error. -/
  | positionOutOfRange (lo hi actual : Nat)
deriving DecidableEq, Repr

/-- What the model gives no meaning to. -/
inductive Refusal where
  /-- Raised by an arm of exec whose operation has no meaning yet. No arm is left. Safe. -/
  | notModelled (mnemonic : String)
  /-- Cause 1. Raised by elaboration, and by any use of an instance that could not elaborate (R67). Safe: a refused
  instance has no hardware. -/
  | invalidParameter (expected : ParameterRule) (actual : Nat)
  /-- Cause 2. Raised by elaboration, and by presenting a vector that could not be connected to the port (R68).
  Safe: such an instance does not elaborate. -/
  | lengthMismatch (port : Port) (expected actual : Nat)
  /-- Cause 4. Raised when a sampled input wire holds X or Z (R39, R69). Safe: the spec asks for the refusal. -/
  | invalidBitValue (port : Port)
  /-- Raised by the step when the environment presents nothing more. Safe: nothing is claimed about inputs that are not
  there (notes/assumptions/6.md). -/
  | noInput
deriving DecidableEq, Repr

/-- The spec's cause code of the fault (R65). -/
def Fault.cause : Fault → Nat
  | .positionOutOfRange _ _ _ => 3

/-- The spec's cause code of a refusal (R65); none for the model's own two. -/
def Refusal.cause : Refusal → Option Nat
  | .notModelled _ => none
  | .invalidParameter _ _ => some 1
  | .lengthMismatch _ _ _ => some 2
  | .invalidBitValue _ => some 4
  | .noInput => none

/-- The levels on hamming_encoder's input ports (R35). At PIPE = 0 there is no `rst` port and `rst` stays false. -/
structure EncPins where
  rst : Bool
  inValid : Bool
  dataIn : Bits
deriving DecidableEq, Repr

/-- What hamming_decoder's input ports are connected to (R36, R81). At PIPE = 0 there is no `rst` port and `rst` stays
false. -/
inductive DecPins where
  /-- Levels the environment drives. -/
  | driven (rst inValid : Bool) (codeIn : Bits)
  /-- The encoder's `out_valid` and `code_out`, the latter through FLIP at a position if one is given. -/
  | linked (rst : Bool) (flipAt : Option Nat)
deriving DecidableEq, Repr

/-- The state of a pair of units and of the environment around it. The hardware's own state is the six registers of
R20 and R21, which exist at PIPE = 1 only: at PIPE = 0 no operation writes them and no port reads them (R19, R24). -/
structure State where
  /-- The elaborated configuration (R15). No operation changes it. -/
  cfg : Config
  /-- The encoder's input ports as the environment drives them (R35). -/
  encPins : EncPins
  /-- The decoder's input ports as the environment connects them (R36). -/
  decPins : DecPins
  /-- `enc_v` (R20). -/
  encV : Bool
  /-- `enc_code`, N bits (R20). -/
  encCode : Bits
  /-- `dec_v` (R21). -/
  decV : Bool
  /-- `dec_data`, K bits (R21). -/
  decData : Bits
  /-- `dec_corr` (R21). -/
  decCorr : Bool
  /-- `dec_syn`, R bits, bit i of weight 2^i (R21, R42). -/
  decSyn : Bits
  /-- MODEL'S OWN: the vector the testbench's last FLIP returned, N bits (R62; notes/assumptions/13.md). -/
  tbOut : Bits
  /-- MODEL'S OWN: what the environment presents next, first at the head (notes/assumptions/6.md). -/
  pending : List Stimulus
  /-- MODEL'S OWN: how many free bits have been drawn. -/
  draws : Nat
deriving DecidableEq, Repr

/-- The free bits of indexes start, start + 1, …, as a vector. -/
def drawBits (start width : Nat) : Bits := (List.range width).map fun i => Config.freeBit (start + i)

/-- A pair right after a reset edge (R76): `enc_v` and `dec_v` are 0 and the data registers are unspecified, so they
are free values (R23; notes/assumptions/3.md). No transaction is on the input ports, and the levels on their vectors
are free too (notes/assumptions/5.md). -/
def State.resetOf (c : Config) : State where
  cfg := c
  encPins := { rst := false, inValid := false, dataIn := drawBits 0 c.K }
  decPins := .driven false false (drawBits c.K c.N)
  encV := false
  encCode := drawBits (c.K + c.N) c.N
  decV := false
  decData := drawBits (c.K + 2 * c.N) c.K
  decCorr := Config.freeBit (2 * c.K + 2 * c.N)
  decSyn := drawBits (2 * c.K + 2 * c.N + 1) c.R
  tbOut := drawBits (2 * c.K + 2 * c.N + 1 + c.R) c.N
  pending := []
  draws := 2 * c.K + 3 * c.N + c.R + 1

/-- A pair at power-up, before any reset edge: every register is unspecified, `enc_v` and `dec_v` too (R78). DESIGN CHOICE
(notes/assumptions/4.md): the spec does not say what is on the input ports before anything drives them. The model leaves
`in_valid` and the vectors free and fixes `rst` to 0 on both units. No step reads that 0: an edge comes with inputs that
are driven first. -/
def State.powerUp (c : Config) : State :=
  let s := State.resetOf c
  { s with
    encPins := { s.encPins with inValid := Config.freeBit s.draws }
    decPins := .driven false (Config.freeBit (s.draws + 1)) (drawBits c.K c.N)
    encV := Config.freeBit (s.draws + 2)
    decV := Config.freeBit (s.draws + 3)
    draws := s.draws + 4 }

/-- The machine right after reset, on the instance `Config.atReset` (notes/assumptions/1.md). -/
def State.reset : State := State.resetOf Config.atReset

end Sys2Proof.Machine
end

