-- ==== Sys2Proof/Machine/Ops.lean ====
section
/-! DEFINITION. The shared operations: positions and coverage sets (spec/00_scope.md R8, R12 to R14), vectors, the
elaboration checks (spec/60_exceptions.md R67 to R70) and driving the input ports. There is no memory, no register
file and no trap to take or return from (R17, R26, R72), so no operation on them stands here. -/

namespace Sys2Proof.Machine

/-! ## Positions -/

/-- p = 2^i for some natural i (R13). -/
def isPow2 (p : Nat) : Bool := p == 2 ^ p.log2

/-- The codeword positions 1, …, N (R12). -/
def positions (R : Nat) : List Nat := List.range' 1 (codeN R)

/-- The parity positions 2^0, …, 2^(R−1) (R8). -/
def parityPositions (R : Nat) : List Nat := (List.range R).map (2 ^ ·)

/-- The non-parity positions in increasing order (R14). -/
def dataPositions (R : Nat) : List Nat := (positions R).filter fun p => !isPow2 p

/-- The (j+1)-th smallest non-parity position, for j < K (R14). -/
def dataPos (R j : Nat) : Nat := (dataPositions R).getD j 0

/-- The data index of a non-parity position: p − 2 − floor(log2 p) (R14). -/
def dataIdx (p : Nat) : Nat := p - 2 - p.log2

/-- The coverage set of a parity position q: the positions i with i & q ≠ 0 (R14). -/
def cover (R q : Nat) : List Nat := (positions R).filter fun i => i &&& q != 0

/-! ## Vectors -/

/-- v@p: the bit at the 1-based position p, vector bit p − 1 (R12). It is read at positions of the vector only. -/
def bitAt (v : Bits) (p : Nat) : Bool := v.getD (p - 1) false

/-- XOR of f over a set, 0 for the empty set (R13). -/
def xorOver (S : List Nat) (f : Nat → Bool) : Bool := S.foldr (fun i acc => f i ^^ acc) false

/-- Bitwise XOR of two vectors of one width. -/
def bitsXor (a b : Bits) : Bits := List.zipWith (· ^^ ·) a b

/-- The n-bit vector whose only 1 is at position s, all zeros when s = 0 (R13). -/
def onehot (n s : Nat) : Bits := (List.range' 1 n).map fun p => p == s

/-! ## Elaboration -/

/-- The check on R (R67, first line). -/
def checkR (R : Nat) : Option Refusal :=
  if R < 2 then some (.invalidParameter .rAtLeastTwo R) else none

/-- The check on PIPE (R67, second line). -/
def checkPipe (PIPE : Nat) : Option Refusal :=
  if PIPE = 0 ∨ PIPE = 1 then none else some (.invalidParameter .pipeZeroOrOne PIPE)

/-- The check of a vector connected to a port (R68). -/
def checkWidth (port : Port) (expected actual : Nat) : Option Refusal :=
  if actual = expected then none else some (.lengthMismatch port expected actual)

/-- The checks on an encoder whose `data_in` is connected to a vector of a width: R, then PIPE, then the width (R70). -/
def checkEncoder (c : Config) (dataInWidth : Nat) : Option Refusal :=
  (checkR c.R).or ((checkPipe c.encPIPE).or (checkWidth .dataIn c.K dataInWidth))

/-- The checks on a decoder whose `code_in` is connected to a vector of a width (R70). -/
def checkDecoder (c : Config) (codeInWidth : Nat) : Option Refusal :=
  (checkR c.R).or ((checkPipe c.decPIPE).or (checkWidth .codeIn c.N codeInWidth))

/-- The checks on a testbench call of FLIP: N is defined once R is legal, and the operand is an N-bit vector (R62). -/
def checkFlip (c : Config) (operandWidth : Nat) : Option Refusal :=
  (checkR c.R).or (checkWidth .flipOperand c.N operandWidth)

/-- The widths of the vectors connected to the four data ports (R37, R68). -/
structure Connections where
  dataIn : Nat
  codeOut : Nat
  codeIn : Nat
  dataOut : Nat
deriving DecidableEq, Repr

/-- Elaborate a pair (R67, R68, R79 step 1): the first failing check is the only one reported, in the order R, PIPE,
widths (R70), the encoder's before the decoder's within each kind (notes/assumptions/18.md). What elaborates is in
its power-up state (R78). -/
def elaborate (c : Config) (w : Connections) : Except Refusal State :=
  match (checkR c.R).or ((checkPipe c.encPIPE).or ((checkPipe c.decPIPE).or
      ((checkWidth .dataIn c.K w.dataIn).or ((checkWidth .codeOut c.N w.codeOut).or
      ((checkWidth .codeIn c.N w.codeIn).or (checkWidth .dataOut c.K w.dataOut)))))) with
  | some r => .error r
  | none => .ok (State.powerUp c)

/-! ## Driving the input ports -/

/-- Put levels on the encoder's input ports. -/
def State.driveEncoder (s : State) (rst inValid : Bool) (dataIn : Bits) : State :=
  { s with encPins := { rst := rst, inValid := inValid, dataIn := dataIn } }

/-- Connect the decoder's input ports. -/
def State.driveDecoder (s : State) (p : DecPins) : State := { s with decPins := p }

/-- Keep the testbench's FLIP result. -/
def State.setTbOut (s : State) (v : Bits) : State := { s with tbOut := v }

/-- Count n more free bits as drawn. -/
def State.addDraws (s : State) (n : Nat) : State := { s with draws := s.draws + n }

/-- What the environment presents next. -/
def State.setPending (s : State) (l : List Stimulus) : State := { s with pending := l }

/-- Go on with a next state; a fault or a refusal stays. -/
def andThen (o : Host.Outcome State Fault Refusal) (f : State → Host.Outcome State Fault Refusal) :
    Host.Outcome State Fault Refusal :=
  match o with
  | .next s => f s
  | .fault r => .fault r
  | .refused r => .refused r

end Sys2Proof.Machine
end

