-- ==== Sys2Proof/Machine/Operands.lean ====
section
/-! DEFINITION. The operand forms: where the data bits of a codeword stand (spec/30_encoding.md R40, R41, R43), and
how the machine reads the wires presented to it (R39). -/

namespace Sys2Proof.Machine

/-- Data placement: the vector t with every parity slot 0 and the data bits in order at the other positions (R46). -/
def placement (R : Nat) (d : Bits) : Bits :=
  (positions R).map fun p => if isPow2 p then false else d.getD (dataIdx p) false

/-- Data extraction: data_out[j] is the bit at position dataPos(j) (R57). -/
def extract (R : Nat) (w : Bits) : Bits := (List.range (dataK R)).map fun j => bitAt w (dataPos R j)

/-- Read a 1-bit input that is sampled; X and Z are refused (R39). -/
def readWire (port : Port) (b : Logic) : Except Refusal Bool :=
  match b.toBool? with
  | some v => .ok v
  | none => .error (.invalidBitValue port)

/-- Read `rst`, which is a port at PIPE = 1 only (R35, R36, R75). -/
def readRst (PIPE : Nat) (rst : Logic) : Except Refusal Bool :=
  if PIPE = 0 then .ok false else readWire .rst rst

/-- Read a vector that is not sampled, because `in_valid` is 0: an X or Z on it is not refused (R39) and is given no
value, so its bit is the next free one (notes/assumptions/9.md). -/
def idleBits (draws : Nat) : LogicVec → Bits
  | [] => []
  | b :: v => (b.toBool?.getD (Config.freeBit draws)) :: idleBits (draws + 1) v

/-- The refusal that a decoding error stands for (R65). -/
def decodeRefusal : DecodeError → Refusal
  | .lengthMismatch port expected actual => .lengthMismatch port expected actual
  | .invalidBitValue port => .invalidBitValue port

end Sys2Proof.Machine
end

