-- ==== Sys2Proof/Machine/Encoder.lean ====
section
/-! DEFINITION. hamming_encoder: the function ENC (spec/41_encoder.md R46 to R49), the unit's ports and registers
(spec/10_state.md R19, R20, R22) and the meaning of ENCODE. -/

namespace Sys2Proof.Machine

/-- The parity bit of position q over a placement vector t: the XOR over the data positions of cover(q) (R49). -/
def parityBit (R : Nat) (t : Bits) (q : Nat) : Bool :=
  xorOver ((cover R q).filter fun p => !isPow2 p) (bitAt t)

/-- ENC (R49): the placement vector with each parity slot filled. -/
def enc (R : Nat) (d : Bits) : Bits :=
  (positions R).map fun p =>
    if isPow2 p then parityBit R (placement R d) p else bitAt (placement R d) p

/-- `out_valid` of the encoder (R35): `in_valid` at PIPE = 0, `enc_v` at PIPE = 1. -/
def State.encOutValid (s : State) : Bool :=
  if s.cfg.encPIPE = 0 then s.encPins.inValid else s.encV

/-- `code_out` (R35): ENC of `data_in` at PIPE = 0, `enc_code` at PIPE = 1. It means something only while `out_valid` is
1 (R23). -/
def State.codeOut (s : State) : Bits :=
  if s.cfg.encPIPE = 0 then enc s.cfg.R s.encPins.dataIn else s.encCode

/-- What the encoder's port contract lets an observer see: `code_out` while `out_valid` is 1, and nothing else (R23). -/
def State.encObserved (s : State) : Option Bits :=
  if s.encOutValid then some s.codeOut else none

/-- One rising edge of the encoder's `clk` (R22). At PIPE = 0 there is no clock and no register (R19). DESIGN CHOICE
(notes/assumptions/23.md): an edge with `rst` = 0 before the first reset edge updates the registers as R22 says for every
edge, although R78 leaves every register, `enc_v` too, unspecified until a reset edge. -/
def State.encoderEdge (s : State) : State :=
  if s.cfg.encPIPE = 0 then s
  else if s.encPins.rst then { s with encV := false }
  else if s.encPins.inValid then { s with encV := true, encCode := enc s.cfg.R s.encPins.dataIn }
  else { s with encV := false }

/-- ENCODE (R49): one accepted transaction. `data_in` = d with `in_valid` = 1 and no reset, and at PIPE = 1 the edge
that samples it. It raises nothing on an instance that elaborates (R66). -/
def execEncode (d : Bits) (s : State) : Host.Outcome State Fault Refusal :=
  match checkEncoder s.cfg d.length with
  | some r => .refused r
  | none => .next (s.driveEncoder false true d).encoderEdge

end Sys2Proof.Machine
end

