-- ==== Sys2Proof/Machine/Flags.lean ====
section
/-! DEFINITION. The decoder's status outputs, which play the role of flags (spec/10_state.md R18): the parity checks,
the syndrome and `corrected` (spec/42_decoder.md R51, R52, R56). -/

namespace Sys2Proof.Machine

/-- Parity check i: the XOR of the received codeword over cover(2^i), the parity slot included (R51). -/
def parityCheck (R : Nat) (c : Bits) (i : Nat) : Bool := xorOver (cover R (2 ^ i)) (bitAt c)

/-- The syndrome as a natural number: the sum of 2^i over the checks that are 1 (R52). -/
def syndrome (R : Nat) (c : Bits) : Nat :=
  ((List.range R).map fun i => if parityCheck R c i then 2 ^ i else 0).sum

/-- The syndrome port: bit i is check i (R42, R52). -/
def syndromeBits (R : Nat) (c : Bits) : Bits := (List.range R).map (parityCheck R c)

/-- The corrected flag: the syndrome is nonzero (R56). -/
def correctedFlag (R : Nat) (c : Bits) : Bool := syndrome R c != 0

end Sys2Proof.Machine
end

