-- ==== Sys2Proof/Machine/Testbench.lean ====
section
/-! DEFINITION. FLIP, the testbench's error injector (spec/43_error_simulator.md R62 to R64). It is no part of the
block (spec/00_scope.md R4; spec/90_conflicts.md C4). -/

namespace Sys2Proof.Machine

/-- FLIP's value: c with the bit at position pos inverted (R62). -/
def flipBit (R : Nat) (c : Bits) (pos : Nat) : Bits := bitsXor c (onehot (codeN R) pos)

/-- FLIP's precondition: PositionOutOfRange when pos is outside [1, N] (R62). -/
def checkPosition (R pos : Nat) : Option Fault :=
  if pos < 1 ∨ codeN R < pos then some (.positionOutOfRange 1 (codeN R) pos) else none

/-- FLIP (R62), a step of the testbench: it returns a new vector and changes nothing else. DESIGN CHOICE
(notes/assumptions/18.md): a call with a wrong operand width and a position out of range is refused for the width; neither
R62 nor R70 orders the two. -/
def execFlip (c : Bits) (pos : Nat) (s : State) : Host.Outcome State Fault Refusal :=
  match checkFlip s.cfg c.length with
  | some r => .refused r
  | none =>
    match checkPosition s.cfg.R pos with
    | some f => .fault f
    | none => .next (s.setTbOut (flipBit s.cfg.R c pos))

end Sys2Proof.Machine
end

