-- ==== Sys2Proof/Machine/Decoder.lean ====
section
/-! DEFINITION. hamming_decoder: error locator, corrector, extractor and the function DEC (spec/42_decoder.md R51 to
R58), the unit's ports and registers (spec/10_state.md R19, R21, R22) and the meaning of DECODE. -/

namespace Sys2Proof.Machine

/-- The error locator: the mask whose only 1 is at the position the syndrome names, all zeros for 0 (R53). -/
def locate (R s : Nat) : Bits := onehot (codeN R) s

/-- The working copy w: the received codeword with the located bit inverted (R55). It is no port. -/
def correct (R : Nat) (c : Bits) : Bits := bitsXor c (locate R (syndrome R c))

/-- The triple DEC returns (R58). -/
structure DecResult where
  data : Bits
  corrected : Bool
  syndrome : Bits
deriving DecidableEq, Repr

/-- DEC (R58): total on every N-bit vector, codeword or not. -/
def dec (R : Nat) (c : Bits) : DecResult where
  data := extract R (correct R c)
  corrected := correctedFlag R c
  syndrome := syndromeBits R c

/-- `in_valid` of the decoder: driven, or the encoder's `out_valid` over the link (R81). -/
def State.decInValid (s : State) : Bool :=
  match s.decPins with
  | .driven _ v _ => v
  | .linked _ _ => s.encOutValid

/-- `rst` of the decoder (R36). -/
def State.decRst (s : State) : Bool :=
  match s.decPins with
  | .driven rst _ _ => rst
  | .linked rst _ => rst

/-- `code_in`: driven, or the encoder's `code_out` over the link, through FLIP where the testbench put one (R81). -/
def State.codeIn (s : State) : Bits :=
  match s.decPins with
  | .driven _ _ c => c
  | .linked _ none => s.codeOut
  | .linked _ (some pos) => flipBit s.cfg.R s.codeOut pos

/-- `out_valid` of the decoder (R36). -/
def State.decOutValid (s : State) : Bool :=
  if s.cfg.decPIPE = 0 then s.decInValid else s.decV

/-- `data_out`, `corrected` and `syndrome` (R36): DEC of `code_in` at PIPE = 0, the registers at PIPE = 1. They mean
something only while `out_valid` is 1 (R23). -/
def State.decOut (s : State) : DecResult :=
  if s.cfg.decPIPE = 0 then dec s.cfg.R s.codeIn
  else { data := s.decData, corrected := s.decCorr, syndrome := s.decSyn }

/-- What the decoder's port contract lets an observer see (R23). -/
def State.decObserved (s : State) : Option DecResult :=
  if s.decOutValid then some s.decOut else none

/-- Load the decoder's data registers. -/
def State.loadDecoder (s : State) (r : DecResult) : State :=
  { s with decV := true, decData := r.data, decCorr := r.corrected, decSyn := r.syndrome }

/-- One rising edge of the decoder's `clk` (R22). At PIPE = 0 there is no clock and no register (R19). DESIGN CHOICE
(notes/assumptions/23.md): an edge with `rst` = 0 before the first reset edge updates the registers as R22 says for every
edge, although R78 leaves every register, `dec_v` too, unspecified until a reset edge. -/
def State.decoderEdge (s : State) : State :=
  if s.cfg.decPIPE = 0 then s
  else if s.decRst then { s with decV := false }
  else if s.decInValid then s.loadDecoder (dec s.cfg.R s.codeIn)
  else { s with decV := false }

/-- One rising edge of a `clk` the units share: every register is computed from the ports and registers as they were
before the edge (R22). -/
def State.clockEdge (s : State) : State :=
  { s.encoderEdge with
    decV := s.decoderEdge.decV
    decData := s.decoderEdge.decData
    decCorr := s.decoderEdge.decCorr
    decSyn := s.decoderEdge.decSyn }

/-- DECODE (R58): one accepted transaction. `code_in` = c with `in_valid` = 1 and no reset, and at PIPE = 1 the edge
that samples it. It raises nothing on an instance that elaborates (R66). -/
def execDecode (c : Bits) (s : State) : Host.Outcome State Fault Refusal :=
  match checkDecoder s.cfg c.length with
  | some r => .refused r
  | none => .next (s.driveDecoder (.driven false true c)).decoderEdge

end Sys2Proof.Machine
end

