-- ==== Sys2Proof/Machine/Dispatch.lean ====
section
/-! DEFINITION. The meaning of each operation: one arm per constructor. -/

namespace Sys2Proof.Machine

def exec (i : Instr) (s : State) : Host.Outcome State Fault Refusal :=
  match i with
  | .encode d => Sys2Proof.Machine.execEncode d s
  | .decode c => Sys2Proof.Machine.execDecode c s
  | .flip c pos => Sys2Proof.Machine.execFlip c pos s

end Sys2Proof.Machine
end

