-- ==== Sys2Proof/Machine/Cycle.lean ====
section
/-! DEFINITION. What the block does with what the environment presents: transactions, idle cycles, reset edges, the
encoder-to-decoder link and testbench calls (spec/10_state.md R19, R22; spec/30_encoding.md R39, R45;
spec/70_reset_and_hazards.md R75 to R83). -/

namespace Sys2Proof.Machine

/-- The transaction that an encoder stimulus is, if it is one: no reset at the edge, `in_valid` = 1, and a vector that
decodes. -/
def encoderTransaction (c : Config) (e : EncDrive) : Option Instr :=
  match readRst c.encPIPE e.rst, e.inValid, decodeWord c.R (.encoderPort e.dataIn) with
  | .ok false, .one, .ok i => some i
  | _, _, _ => none

/-- The transaction that a decoder stimulus is, if the environment drives one itself. -/
def decoderTransaction (c : Config) (d : DecDrive) : Option Instr :=
  match d with
  | .linked _ _ => none
  | .ports rst inValid codeIn =>
    match readRst c.decPIPE rst, inValid, decodeWord c.R (.decoderPort codeIn) with
    | .ok false, .one, .ok i => some i
    | _, _, _ => none

/-- Put what the environment drives on the encoder's input ports, or refuse it (R39, R67, R68). -/
def driveEncoderPorts (e : EncDrive) (s : State) : Host.Outcome State Fault Refusal :=
  match checkEncoder s.cfg e.dataIn.length with
  | some r => .refused r
  | none =>
    match readRst s.cfg.encPIPE e.rst with
    | .error r => .refused r
    | .ok rst =>
      match readWire .inValid e.inValid with
      | .error r => .refused r
      | .ok false =>
        .next ((s.driveEncoder rst false (idleBits s.draws e.dataIn)).addDraws e.dataIn.length)
      | .ok true =>
        match readVector .dataIn s.cfg.K e.dataIn with
        | .error err => .refused (decodeRefusal err)
        | .ok d => .next (s.driveEncoder rst true d)

/-- Connect the decoder's input ports as the environment does, or refuse it (R39, R67, R68). A FLIP on the link is a
testbench call and faults as one (R62). DESIGN CHOICE (notes/assumptions/18.md): the parameters and `rst` are checked
before FLIP's position; the spec does not order them. -/
def driveDecoderPorts (d : DecDrive) (s : State) : Host.Outcome State Fault Refusal :=
  match d with
  | .ports rst inValid codeIn =>
    match checkDecoder s.cfg codeIn.length with
    | some r => .refused r
    | none =>
      match readRst s.cfg.decPIPE rst with
      | .error r => .refused r
      | .ok rst =>
        match readWire .inValid inValid with
        | .error r => .refused r
        | .ok false =>
          .next ((s.driveDecoder (.driven rst false (idleBits s.draws codeIn))).addDraws codeIn.length)
        | .ok true =>
          match readVector .codeIn s.cfg.N codeIn with
          | .error err => .refused (decodeRefusal err)
          | .ok c => .next (s.driveDecoder (.driven rst true c))
  | .linked rst flipAt =>
    match (checkEncoder s.cfg s.cfg.K).or (checkDecoder s.cfg s.cfg.N) with
    | some r => .refused r
    | none =>
      match readRst s.cfg.decPIPE rst with
      | .error r => .refused r
      | .ok rst =>
        match flipAt.bind (checkPosition s.cfg.R) with
        | some f => .fault f
        | none => .next (s.driveDecoder (.linked rst flipAt))

/-- What one stimulus does. A stimulus that is a transaction of one unit runs that unit's operation. Any other one drives
the ports, and the clock edge, where there is a clock, follows. DESIGN CHOICE (notes/assumptions/18.md), since R70 orders
elaboration checks only and says nothing across two units: where both halves of a shared edge are wrong, what is wrong with
the encoder's half (X, Z and width included) is reported and the decoder's half is not looked at; and a FLIP call is
refused for R, the operand's width or an X or Z in it before its position is checked (R62). -/
def present (st : Stimulus) (s : State) : Host.Outcome State Fault Refusal :=
  match st with
  | .encoder e =>
    match encoderTransaction s.cfg e with
    | some i => exec i s
    | none => andThen (driveEncoderPorts e s) fun s => .next s.encoderEdge
  | .decoder d =>
    match decoderTransaction s.cfg d with
    | some i => exec i s
    | none => andThen (driveDecoderPorts d s) fun s => .next s.decoderEdge
  | .both e d =>
    andThen (driveEncoderPorts e s) fun s => andThen (driveDecoderPorts d s) fun s => .next s.clockEdge
  | .testbench c pos =>
    match checkR s.cfg.R with
    | some r => .refused r
    | none =>
      match decodeWord s.cfg.R (.testbenchCall c pos) with
      | .ok i => exec i s
      | .error err => .refused (decodeRefusal err)

/-! ## The transaction notation (R45) -/

/-- `ENC d=[…]`: one encoder transaction. -/
def lineEnc (d : Bits) : EncDrive := { rst := .zero, inValid := .one, dataIn := ofBits d }

/-- `DEC c=[…]`: one decoder transaction. -/
def lineDec (c : Bits) : DecDrive := .ports .zero .one (ofBits c)

/-- `IDLE` on the encoder: one cycle with `in_valid` = 0, whatever is on `data_in`. -/
def lineEncIdle (dataIn : LogicVec) : EncDrive := { rst := .zero, inValid := .zero, dataIn := dataIn }

/-- `IDLE` on the decoder. -/
def lineDecIdle (codeIn : LogicVec) : DecDrive := .ports .zero .zero codeIn

/-- `RST` on the encoder: one cycle with `rst` = 1, whatever else is presented. -/
def lineEncRst (inValid : Logic) (dataIn : LogicVec) : EncDrive := { rst := .one, inValid := inValid, dataIn := dataIn }

/-- `RST` on the decoder. -/
def lineDecRst (inValid : Logic) (codeIn : LogicVec) : DecDrive := .ports .one inValid codeIn

/-- `FLIP c p`: one testbench call. -/
def lineFlip (c : Bits) (pos : Nat) : Stimulus := .testbench (ofBits c) pos

end Sys2Proof.Machine
end

