-- ==== Sys2Proof/Machine/Step.lean ====
section
/-! DEFINITION. One step: the environment presents the next stimulus, and the block reacts to it. The block has no program
counter and fetches nothing (spec/10_state.md R17), so what stands for the next instruction is the head of `pending`. -/

namespace Sys2Proof.Machine

/-- One step: take the next stimulus and present it. Where the environment presents nothing, the model says nothing
(notes/assumptions/6.md). -/
def step (s : State) : Host.Outcome State Fault Refusal :=
  match s.pending with
  | [] => .refused .noInput
  | st :: rest => present st (s.setPending rest)

/-- s with the transaction that a number stands for (`tableWord`) presented next (notes/assumptions/12.md). -/
def State.withFetchWord (s : State) (nbits w : Nat) : State :=
  s.setPending ((tableWord s.cfg.R nbits w).stimulus :: s.pending)

end Sys2Proof.Machine
end

