-- ==== Sys2Proof/Safety.lean ====
section
/-! DEFINITION. The terms of the claims: the states an elaborated pair can be in, the stimuli that the spec gives a
meaning, the runs that meet no error, and when two states look the same from outside. -/

namespace Sys2Proof

/-! ## Inputs -/

/-- A wire is 0 or 1 (R39). -/
def Logic.twoValued (b : Logic) : Bool := b.toBool?.isSome

/-- The inputs that a unit gives a meaning (R37 to R39): the vector is as wide as the port, `in_valid` and, at PIPE = 1,
`rst` are 0 or 1, and every bit of the vector is 0 or 1 when `in_valid` is 1. -/
def legalPorts (PIPE width : Nat) (rst inValid : Logic) (v : LogicVec) : Bool :=
  v.length == width && (PIPE == 0 || Logic.twoValued rst) && Logic.twoValued inValid &&
    (inValid == .zero || v.all Logic.twoValued)

/-- The encoder inputs the spec gives a meaning. -/
def EncDrive.legal (c : Config) (e : EncDrive) : Bool := legalPorts c.encPIPE c.K e.rst e.inValid e.dataIn

/-- The decoder connections the spec gives a meaning. -/
def DecDrive.legal (c : Config) : DecDrive → Bool
  | .ports rst inValid v => legalPorts c.decPIPE c.N rst inValid v
  | .linked rst flipAt =>
    (c.decPIPE == 0 || Logic.twoValued rst) && flipAt.all fun pos => decide (1 ≤ pos ∧ pos ≤ c.N)

/-- The stimuli the spec gives a meaning and that raise no error. -/
def Stimulus.legal (c : Config) : Stimulus → Bool
  | .encoder e => EncDrive.legal c e
  | .decoder d => DecDrive.legal c d
  | .both e d => EncDrive.legal c e && DecDrive.legal c d
  | .testbench v pos => v.length == c.N && v.all Logic.twoValued && decide (1 ≤ pos ∧ pos ≤ c.N)

/-- The port that a unit's inputs are refused for (R39): `rst` at PIPE = 1, `in_valid`, or the vector when `in_valid` is 1,
where an X or Z is on it. Which one is named where there are several is notes/assumptions/18.md. -/
def nonBinaryPort (PIPE : Nat) (vector : Port) (rst inValid : Logic) (v : LogicVec) : Option Port :=
  if PIPE ≠ 0 ∧ Logic.twoValued rst = false then some .rst
  else if Logic.twoValued inValid = false then some .inValid
  else if inValid = .one ∧ v.all Logic.twoValued = false then some vector
  else none

/-- The port that the encoder's inputs are refused for. -/
def EncDrive.nonBinaryPort (c : Config) (e : EncDrive) : Option Port :=
  Sys2Proof.nonBinaryPort c.encPIPE .dataIn e.rst e.inValid e.dataIn

/-- The port that the decoder's inputs are refused for. Of a linked decoder the environment drives `rst` alone. -/
def DecDrive.nonBinaryPort (c : Config) : DecDrive → Option Port
  | .ports rst inValid v => Sys2Proof.nonBinaryPort c.decPIPE .codeIn rst inValid v
  | .linked rst _ => if c.decPIPE ≠ 0 ∧ Logic.twoValued rst = false then some .rst else none

/-- The vector that the environment drives on `code_in`, where it drives one, is N bits wide (R37). -/
def DecDrive.widthFits (c : Config) : DecDrive → Bool
  | .ports _ _ v => v.length == c.N
  | .linked _ _ => true

/-- What the environment puts on the decoder's `rst` (R36). -/
def DecDrive.rst : DecDrive → Logic
  | .ports rst _ _ => rst
  | .linked rst _ => rst

/-- A testbench call of FLIP at a position is part of the stimulus. -/
def Stimulus.callsFlip (pos : Nat) : Stimulus → Bool
  | .encoder _ => false
  | .decoder (.ports _ _ _) => false
  | .decoder (.linked _ flipAt) => flipAt == some pos
  | .both _ (.ports _ _ _) => false
  | .both _ (.linked _ flipAt) => flipAt == some pos
  | .testbench _ p => p == pos

end Sys2Proof

namespace Sys2Proof.Machine

/-- The decoder's input connection fits the instance: an N-bit vector, or a link whose FLIP position is in [1, N]. -/
def DecPins.fits (c : Config) : DecPins → Bool
  | .driven _ _ v => v.length == c.N
  | .linked _ none => true
  | .linked _ (some pos) => decide (1 ≤ pos ∧ pos ≤ c.N)

/-- THE INVARIANT: the configuration elaborated (R9, R67), every vector has its port's or register's width (R20, R21,
R37), and a unit without a `rst` port is not in reset (R75). -/
abbrev State.Inv (s : State) : Prop :=
  s.cfg.Legal ∧ s.encPins.dataIn.length = s.cfg.K ∧ s.decPins.fits s.cfg = true ∧ s.encCode.length = s.cfg.N ∧
    s.decData.length = s.cfg.K ∧ s.decSyn.length = s.cfg.R ∧ s.tbOut.length = s.cfg.N ∧
    (s.cfg.encPIPE = 0 → s.encPins.rst = false) ∧ (s.cfg.decPIPE = 0 → s.decRst = false)

/-- A SAFE RUN: k steps from s meet no fault and no refusal. -/
def SafeRun (k : Nat) (s : State) : Prop := ∃ t, Sys2Proof.core.run k s = .next t

/-- The word c with the bits at the positions E inverted, one FLIP each (R61, R62). -/
def flipAll (R : Nat) (c : Bits) (E : List Nat) : Bits := E.foldl (flipBit R) c

/-- What the link carries for a codeword: the codeword, through FLIP where the testbench put one (R62, R81). -/
def linkWord (R : Nat) (flipAt : Option Nat) (c : Bits) : Bits := flipAt.elim c (flipBit R c)

/-- One parity slot filled in place: position q takes the XOR of the vector over cover(q) (R47). -/
def fillParity (R : Nat) (t : Bits) (q : Nat) : Bits :=
  (positions R).map fun p => if p = q then xorOver (cover R q) (bitAt t) else bitAt t p

/-- The XOR of the positions E as numbers (R59). -/
def xorAll (E : List Nat) : Nat := E.foldr (· ^^^ ·) 0

/-- E lists positions of the codeword, none twice. -/
abbrev PositionSet (R : Nat) (E : List Nat) : Prop := E.Nodup ∧ ∀ p ∈ E, 1 ≤ p ∧ p ≤ codeN R

/-! ## What an edge does to a unit's registers (R22) -/

/-- The encoder went idle or was reset: `enc_v` is 0 and `enc_code` keeps its value. -/
abbrev State.encoderCleared (s t : State) : Prop := t.encV = false ∧ t.encCode = s.encCode

/-- The encoder was loaded: `enc_v` is 1 and `enc_code` holds the codeword c. -/
abbrev State.encoderLoaded (t : State) (c : Bits) : Prop := t.encV = true ∧ t.encCode = c

/-- The decoder went idle or was reset: `dec_v` is 0 and the three data registers keep their values. -/
abbrev State.decoderCleared (s t : State) : Prop :=
  t.decV = false ∧ t.decData = s.decData ∧ t.decCorr = s.decCorr ∧ t.decSyn = s.decSyn

/-- The decoder was loaded: `dec_v` is 1 and the three data registers hold the result r. -/
abbrev State.decoderLoaded (t : State) (r : DecResult) : Prop :=
  t.decV = true ∧ t.decData = r.data ∧ t.decCorr = r.corrected ∧ t.decSyn = r.syndrome

/-! ## Unspecified values (R23, R78; spec/93_implementation_defined.md, treatment `any value`) -/

/-- Two encoders that differ at most in values the port contract does not promise. -/
def State.sameEncoder (s t : State) : Prop :=
  s.encPins.rst = t.encPins.rst ∧ s.encPins.inValid = t.encPins.inValid ∧
    (s.encPins.inValid = true → s.encPins.dataIn = t.encPins.dataIn) ∧
    (s.cfg.encPIPE ≠ 0 → s.encV = t.encV ∧ (s.encV = true → s.encCode = t.encCode))

/-- Two connections of the decoder that differ at most in a vector that is not sampled. -/
def DecPins.same : DecPins → DecPins → Prop
  | .driven rst v c, .driven rst' v' c' => rst = rst' ∧ v = v' ∧ (v = true → c = c')
  | .linked rst p, .linked rst' p' => rst = rst' ∧ p = p'
  | .driven _ _ _, .linked _ _ => False
  | .linked _ _, .driven _ _ _ => False

/-- Two decoders that differ at most in values the port contract does not promise. -/
def State.sameDecoder (s t : State) : Prop :=
  s.decPins.same t.decPins ∧
    (s.cfg.decPIPE ≠ 0 → s.decV = t.decV ∧
      (s.decV = true → s.decData = t.decData ∧ s.decCorr = t.decCorr ∧ s.decSyn = t.decSyn))

/-- Two states that differ at most in unspecified values: one configuration, one environment, and registers that agree
wherever `out_valid` is 1. The free values drawn so far and the testbench's last result may differ. -/
def State.sameUpToUnspecified (s t : State) : Prop :=
  s.cfg = t.cfg ∧ s.pending = t.pending ∧ s.sameEncoder t ∧ s.sameDecoder t

/-- Two outcomes that are alike up to unspecified values. -/
def sameOutcome : Host.Outcome State Fault Refusal → Host.Outcome State Fault Refusal → Prop
  | .next s, .next t => s.sameUpToUnspecified t
  | .fault f, .fault g => f = g
  | .refused r, .refused q => r = q
  | _, _ => False

end Sys2Proof.Machine
end

