-- ==== Sys2Proof/Certificates/Slice0/Obligations.lean ====
section
/-! DEFINITION. The statements for the provers. Each docstring names the rule of spec/ it formalises. A statement that holds
in every state holds before the first reset edge too; what it says there of the registers that an edge with `rst` = 0 leaves
is the model's choice, notes/assumptions/23.md. -/

open Sys2Proof Sys2Proof.Machine

/-! ## Parameters and positions -/

/-- R8: P is the set of the powers of two in 1..N, and the model's test for a power of two is right on it. -/
def Obligations.ParityPositionsArePowersOfTwo : Prop :=
  ∀ R p : Nat,
    (p ∈ parityPositions R ↔ ∃ i, i < R ∧ p = 2 ^ i) ∧
    (p ∈ parityPositions R ↔ (1 ≤ p ∧ p ≤ codeN R) ∧ ∃ i, p = 2 ^ i) ∧
    (1 ≤ p → p ≤ codeN R → (p ∈ parityPositions R ↔ isPow2 p = true))

/-- R14, R41: the K data positions are strictly increasing, dataPos maps {0..K−1} onto the non-parity positions, and
dataIdx is its inverse. -/
def Obligations.DataPositionsBijection : Prop :=
  ∀ R : Nat,
    (dataPositions R).length = dataK R ∧ (dataPositions R).Pairwise (· < ·) ∧
    (∀ j, j < dataK R →
      1 ≤ dataPos R j ∧ dataPos R j ≤ codeN R ∧ isPow2 (dataPos R j) = false ∧ dataIdx (dataPos R j) = j) ∧
    (∀ p, 1 ≤ p → p ≤ codeN R → isPow2 p = false → dataIdx p < dataK R ∧ dataPos R (dataIdx p) = p)

/-! ## Words -/

/-- R37, R38, R40, R41: decoding the port word of a well-formed operation gives the operation back, and an operation
that decodes is well formed and has exactly the word it came from. -/
def Obligations.DecodeAndEncodeAgree : Prop :=
  (∀ (R : Nat) (i : Instr), i.wellFormed R = true → decodeWord R (encodeWord i) = .ok i) ∧
  (∀ (R : Nat) (w : PortWord) (i : Instr),
    decodeWord R w = .ok i → i.wellFormed R = true ∧ encodeWord i = w)

/-- The host's one-number form drops no bit. That form is the model's choice: notes/assumptions/12.md. -/
def Obligations.TableWordRoundTrip : Prop :=
  ∀ (R nbits : Nat) (i : Instr), i.wellFormed R = true → encodeTableWord R i < 2 ^ nbits →
    decodeWord R (tableWord R nbits (encodeTableWord R i)) = .ok i

/-- R38: the unit alone selects the operation, and every 2-valued vector of the port's width is legal. -/
def Obligations.EveryTwoValuedVectorIsLegal : Prop :=
  ∀ (R : Nat) (v : LogicVec),
    ((v.length = dataK R ∧ ∀ b ∈ v, b = .zero ∨ b = .one) ↔
      ∃ d, decodeWord R (.encoderPort v) = .ok (.encode d)) ∧
    ((v.length = codeN R ∧ ∀ b ∈ v, b = .zero ∨ b = .one) ↔
      ∃ c, decodeWord R (.decoderPort v) = .ok (.decode c))

/-- Words of the spec's encodings (opcode_table.json; 30_encoding.md R40, R41; 95_test_vectors.md L1), written out. -/
def Obligations.SpecWordsDecode : Prop :=
  decodeWord 3 (.encoderPort [.one, .zero, .one, .one]) = .ok (.encode [true, false, true, true]) ∧
  decodeWord 3 (.decoderPort [.zero, .one, .zero, .zero, .zero, .one, .one]) =
    .ok (.decode [false, true, false, false, false, true, true]) ∧
  decodeWord 3 (.testbenchCall [.zero, .one, .one, .zero, .zero, .one, .one] 3) =
    .ok (.flip [false, true, true, false, false, true, true] 3) ∧
  decodeWord 2 (.encoderPort [.one]) = .ok (.encode [true]) ∧
  decodeWord 3 (.encoderPort [.one, .zero, .one, .one, .zero]) = .error (.lengthMismatch .dataIn 4 5) ∧
  decodeWord 3 (.decoderPort [.zero, .one, .zero, .zero, .zero, .one]) = .error (.lengthMismatch .codeIn 7 6) ∧
  decodeWord 2 (.decoderPort [.zero, .x, .one]) = .error (.invalidBitValue .codeIn)

/-! ## ENCODE -/

/-- R49: ENCODE completes on every instance that elaborates, at either PIPE, for every K-bit operand. `code_out` holds
the data bits in order at the non-parity positions and, at each parity position, the XOR of the data bits it covers. At
PIPE = 1 the registers are loaded with it (R22). Before the first reset edge: notes/assumptions/23.md. -/
def Obligations.EncodeCompletes : Prop :=
  ∀ (s : State) (d : Bits),
    2 ≤ s.cfg.R → (s.cfg.encPIPE = 0 ∨ s.cfg.encPIPE = 1) → d.length = s.cfg.K →
    ∃ t, exec (.encode d) s = .next t ∧ t.encOutValid = true ∧ t.codeOut.length = s.cfg.N ∧
      (∀ p, 1 ≤ p → p ≤ s.cfg.N → isPow2 p = false → bitAt t.codeOut p = d.getD (dataIdx p) false) ∧
      (∀ i, i < s.cfg.R →
        bitAt t.codeOut (2 ^ i) =
          xorOver ((cover s.cfg.R (2 ^ i)).filter fun p => !isPow2 p) fun p => d.getD (dataIdx p) false) ∧
      (s.cfg.encPIPE = 1 → t.encV = true ∧ t.encCode = t.codeOut)

/-- R22, R25, R49: what ENCODE leaves unchanged: the configuration, the decoder's ports and registers (its flags too),
and everything of the testbench; and at PIPE = 0 the encoder's registers, which no hardware then has. -/
def Obligations.EncodeFrame : Prop :=
  ∀ (s t : State) (d : Bits), exec (.encode d) s = .next t →
    t.cfg = s.cfg ∧ t.decPins = s.decPins ∧ t.decV = s.decV ∧ t.decData = s.decData ∧ t.decCorr = s.decCorr ∧
      t.decSyn = s.decSyn ∧ t.tbOut = s.tbOut ∧ t.pending = s.pending ∧ t.draws = s.draws ∧
      t.encPins = { rst := false, inValid := true, dataIn := d } ∧
      (s.cfg.encPIPE = 0 → t.encV = s.encV ∧ t.encCode = s.encCode)

/-- R47: the parity bit of q = 2^i is the XOR of the placement vector over cover(q), and parity is even: over the output
codeword, P_q included, that XOR is 0. -/
def Obligations.ParityIsEven : Prop :=
  ∀ (R i : Nat) (d : Bits), i < R →
    bitAt (enc R d) (2 ^ i) = xorOver (cover R (2 ^ i)) (bitAt (placement R d)) ∧
    xorOver (cover R (2 ^ i)) (bitAt (enc R d)) = false

/-- R48: no coverage set holds another parity position, so the parity bit of q = 2^i, which ENC puts at q, is the XOR of
the data bits at the non-parity positions of cover(q); what the other parity slots hold does not matter; and filling the
slots one after the other, in any order, gives the same codeword as all at once. -/
def Obligations.ParityBitsAreIndependent : Prop :=
  (∀ a b : Nat, a ≠ b → 2 ^ b &&& 2 ^ a = 0) ∧
  (∀ R a b : Nat, a ≠ b → 2 ^ b ∉ cover R (2 ^ a)) ∧
  (∀ (R i : Nat) (t u : Bits), i < R →
    (∀ p, 1 ≤ p → p ≤ codeN R → isPow2 p = false → bitAt t p = bitAt u p) → bitAt t (2 ^ i) = bitAt u (2 ^ i) →
    xorOver (cover R (2 ^ i)) (bitAt t) = xorOver (cover R (2 ^ i)) (bitAt u)) ∧
  (∀ (R i : Nat) (d : Bits), i < R →
    bitAt (enc R d) (2 ^ i) = parityBit R (placement R d) (2 ^ i) ∧
    parityBit R (placement R d) (2 ^ i) =
      xorOver ((cover R (2 ^ i)).filter fun p => !isPow2 p) fun p => d.getD (dataIdx p) false) ∧
  (∀ (R : Nat) (d : Bits) (order : List Nat), order.Perm (parityPositions R) →
    order.foldl (fillParity R) (placement R d) = enc R d)

/-- R49, corner cases: ENC is linear over XOR. -/
def Obligations.EncodeIsLinear : Prop :=
  ∀ (R : Nat) (a b : Bits), a.length = dataK R → b.length = dataK R →
    enc R (bitsXor a b) = bitsXor (enc R a) (enc R b)

/-- R49, corner cases: all zeros encode to all zeros; for R ≥ 2 all ones encode to all ones; at R = 2 the code is the
threefold repetition; the data bits stand unchanged at their positions. -/
def Obligations.EncodeCornerCases : Prop :=
  (∀ R, enc R (List.replicate (dataK R) false) = List.replicate (codeN R) false) ∧
  (∀ R, 2 ≤ R → enc R (List.replicate (dataK R) true) = List.replicate (codeN R) true) ∧
  (∀ b, enc 2 [b] = [b, b, b]) ∧
  (∀ (R j : Nat) (d : Bits), j < dataK R → bitAt (enc R d) (dataPos R j) = d.getD j false)

/-- R50: every encoder output has syndrome 0, so DECODE gives the data back with `corrected` = 0. -/
def Obligations.EncodedWordHasSyndromeZero : Prop :=
  ∀ (R : Nat) (d : Bits), d.length = dataK R →
    syndrome R (enc R d) = 0 ∧ (dec R (enc R d)).data = d ∧ (dec R (enc R d)).corrected = false

/-! ## DECODE -/

/-- R58: DECODE completes on every instance that elaborates, at either PIPE, for EVERY N-bit word. With s the syndrome,
whose bit i is the XOR of the received word over cover(2^i): `data_out[j]` is the bit at dataPos(j), inverted where that
position is s; `corrected` is s ≠ 0; `syndrome` is s. At PIPE = 1 the registers are loaded with them (R22). Before the
first reset edge: notes/assumptions/23.md. -/
def Obligations.DecodeCompletes : Prop :=
  ∀ (s : State) (c : Bits),
    2 ≤ s.cfg.R → (s.cfg.decPIPE = 0 ∨ s.cfg.decPIPE = 1) → c.length = s.cfg.N →
    ∃ (t : State) (n : Nat), exec (.decode c) s = .next t ∧ t.decOutValid = true ∧
      n ≤ s.cfg.N ∧ (∀ i, i < s.cfg.R → n.testBit i = xorOver (cover s.cfg.R (2 ^ i)) (bitAt c)) ∧
      t.decOut.syndrome = bitsOfNat s.cfg.R n ∧ t.decOut.corrected = (n != 0) ∧
      t.decOut.data.length = s.cfg.K ∧
      (∀ j, j < s.cfg.K →
        t.decOut.data.getD j false = (bitAt c (dataPos s.cfg.R j) ^^ (dataPos s.cfg.R j == n))) ∧
      (s.cfg.decPIPE = 1 → t.decV = true ∧ t.decData = t.decOut.data ∧ t.decCorr = t.decOut.corrected ∧
        t.decSyn = t.decOut.syndrome)

/-- R22, R25, R58: what DECODE leaves unchanged: the configuration, the encoder's ports and registers, and everything of
the testbench; and at PIPE = 0 the decoder's registers. -/
def Obligations.DecodeFrame : Prop :=
  ∀ (s t : State) (c : Bits), exec (.decode c) s = .next t →
    t.cfg = s.cfg ∧ t.encPins = s.encPins ∧ t.encV = s.encV ∧ t.encCode = s.encCode ∧ t.tbOut = s.tbOut ∧
      t.pending = s.pending ∧ t.draws = s.draws ∧ t.decPins = .driven false true c ∧
      (s.cfg.decPIPE = 0 →
        t.decV = s.decV ∧ t.decData = s.decData ∧ t.decCorr = s.decCorr ∧ t.decSyn = s.decSyn)

/-- R52, R54: the syndrome is the number whose bits are the checks; the port holds it; it lies in [0, N], so a nonzero
one always names a position. -/
def Obligations.SyndromeIsANumberUpToN : Prop :=
  ∀ (R : Nat) (c : Bits),
    syndrome R c ≤ codeN R ∧ syndrome R c ≤ 2 ^ R - 1 ∧ bitsToNat (syndromeBits R c) = syndrome R c ∧
    (∀ i, i < R → (syndromeBits R c).getD i false = parityCheck R c i ∧
      (syndrome R c).testBit i = parityCheck R c i)

/-- R53, R55: the locator's mask is all zeros for 0 and otherwise has its only 1 at the named position; the working copy
is the received word with at most that bit inverted. -/
def Obligations.CorrectorInvertsTheNamedBit : Prop :=
  (∀ R s p : Nat, 1 ≤ p → p ≤ codeN R → (bitAt (locate R s) p = true ↔ p = s)) ∧
  (∀ (R : Nat) (c : Bits), c.length = codeN R →
    (correct R c).length = codeN R ∧ (syndrome R c = 0 → correct R c = c) ∧
    (syndrome R c ≠ 0 → ∀ p, 1 ≤ p → p ≤ codeN R →
      bitAt (correct R c) p = if p = syndrome R c then !bitAt c p else bitAt c p))

/-- R59: the syndrome is linear; of a single-bit error it is the position; of a received word with the bits at E flipped
it is the XOR of the positions in E. -/
def Obligations.SyndromeIsLinear : Prop :=
  (∀ (R : Nat) (c x : Bits), c.length = codeN R → x.length = codeN R →
    syndrome R (bitsXor c x) = syndrome R c ^^^ syndrome R x) ∧
  (∀ R p : Nat, 1 ≤ p → p ≤ codeN R → syndrome R (onehot (codeN R) p) = p) ∧
  (∀ (R : Nat) (d : Bits) (E : List Nat), d.length = dataK R → PositionSet R E →
    syndrome R (flipAll R (enc R d) E) = xorAll E)

/-- R60: encode, flip any one bit, decode: the data comes back, `corrected` is 1 and the syndrome names the position.
Run on the machine, at either PIPE of either unit, from any state. Before the first reset edge: notes/assumptions/23.md.
-/
def Obligations.EverySingleErrorIsCorrected : Prop :=
  ∀ (s : State) (d : Bits), s.cfg.Legal → d.length = s.cfg.K →
    (∀ p, 1 ≤ p → p ≤ s.cfg.N → ∃ t u v, exec (.encode d) s = .next t ∧ exec (.flip t.codeOut p) t = .next u ∧
      exec (.decode u.tbOut) u = .next v ∧
      v.decObserved = some { data := d, corrected := true, syndrome := bitsOfNat s.cfg.R p }) ∧
    (∃ t v, exec (.encode d) s = .next t ∧ exec (.decode t.codeOut) t = .next v ∧
      v.decObserved = some { data := d, corrected := false, syndrome := bitsOfNat s.cfg.R 0 })

/-- R61: several errors. With E the flipped positions and s their XOR, `corrected` is s ≠ 0; the working copy differs from
the codeword exactly on the symmetric difference of E and {s}; the data is wrong exactly when that difference
holds a non-parity position; a zero s hides an error that always corrupts the data, and can occur; a double error
always sets `corrected`, and equals some single error. -/
def Obligations.MultipleErrorsDecodeExactly : Prop :=
  (∀ (R : Nat) (d : Bits) (E : List Nat), d.length = dataK R → PositionSet R E →
    (dec R (flipAll R (enc R d) E)).corrected = (xorAll E != 0) ∧
    (∀ p, 1 ≤ p → p ≤ codeN R →
      (bitAt (correct R (flipAll R (enc R d) E)) p ≠ bitAt (enc R d) p ↔ ¬(p ∈ E ↔ p = xorAll E))) ∧
    ((dec R (flipAll R (enc R d) E)).data ≠ d ↔
      ∃ p, 1 ≤ p ∧ p ≤ codeN R ∧ isPow2 p = false ∧ ¬(p ∈ E ↔ p = xorAll E)) ∧
    (E ≠ [] → xorAll E = 0 → 3 ≤ E.length ∧ (dec R (flipAll R (enc R d) E)).data ≠ d) ∧
    (E.length = 2 → (dec R (flipAll R (enc R d) E)).corrected = true ∧
      ∃ e q, e.length = dataK R ∧ 1 ≤ q ∧ q ≤ codeN R ∧
        flipAll R (enc R d) E = flipBit R (enc R e) q)) ∧
  xorAll [1, 2, 3] = 0

/-- R60, R61: the code is perfect. Whatever the decoder receives, the working copy is the codeword of the data it puts
out. -/
def Obligations.WorkingCopyIsAlwaysACodeword : Prop :=
  ∀ (R : Nat) (c : Bits), c.length = codeN R → correct R c = enc R (dec R c).data

/-- R58, corner cases: all zeros and all ones decode to themselves without correction; at R = 2 the decoder is a majority
vote. -/
def Obligations.DecodeCornerCases : Prop :=
  (∀ R, dec R (List.replicate (codeN R) false) =
    { data := List.replicate (dataK R) false, corrected := false, syndrome := List.replicate R false }) ∧
  (∀ R, 2 ≤ R → dec R (List.replicate (codeN R) true) =
    { data := List.replicate (dataK R) true, corrected := false, syndrome := List.replicate R false }) ∧
  (∀ a b c, (dec 2 [a, b, c]).data = [(a && b) || (a && c) || (b && c)])

/-! ## FLIP -/

/-- R62: FLIP on an N-bit word: with a position in [1, N] it completes, returns the word with exactly that bit inverted
and changes nothing else; with any other position it faults with PositionOutOfRange, the range and the position. -/
def Obligations.FlipCompletesInRangeOnly : Prop :=
  ∀ (s : State) (c : Bits) (pos : Nat), 2 ≤ s.cfg.R → c.length = s.cfg.N →
    (1 ≤ pos → pos ≤ s.cfg.N →
      ∃ t, exec (.flip c pos) s = .next t ∧ t = { s with tbOut := t.tbOut } ∧ t.tbOut.length = s.cfg.N ∧
        ∀ p, 1 ≤ p → p ≤ s.cfg.N → bitAt t.tbOut p = if p = pos then !bitAt c p else bitAt c p) ∧
    (pos < 1 ∨ s.cfg.N < pos →
      exec (.flip c pos) s = .fault (.positionOutOfRange 1 s.cfg.N pos))

/-- R63: FLIP is its own inverse at every legal position. -/
def Obligations.FlipIsAnInvolution : Prop :=
  ∀ (s : State) (c : Bits) (pos : Nat), 2 ≤ s.cfg.R → c.length = s.cfg.N → 1 ≤ pos → pos ≤ s.cfg.N →
    ∃ t u, exec (.flip c pos) s = .next t ∧ exec (.flip t.tbOut pos) t = .next u ∧ u.tbOut = c

/-- R64: for a nonzero syndrome, the decoder's correction is FLIP at the syndrome. -/
def Obligations.FlipAgreesWithCorrector : Prop :=
  ∀ (s : State) (c : Bits), 2 ≤ s.cfg.R → c.length = s.cfg.N → syndrome s.cfg.R c ≠ 0 →
    ∃ t, exec (.flip c (syndrome s.cfg.R c)) s = .next t ∧ t.tbOut = correct s.cfg.R c

/-! ## Steps -/

/-- R38, R45: a step that is presented the word of an operation runs that operation, on the state without the stimulus.
Clause 2, on `withFetchWord` and `tableWord`, is the model's choice and no rule of the spec: the one-number form is
notes/assumptions/12.md, and placing it at the head of the inputs is notes/assumptions/6.md. -/
def Obligations.StepRunsTheDecodedOperation : Prop :=
  (∀ (s : State) (w : PortWord) (rest : List Stimulus) (i : Instr),
    s.pending = w.stimulus :: rest → decodeWord s.cfg.R w = .ok i → step s = exec i (s.setPending rest)) ∧
  (∀ (s : State) (nbits w : Nat) (i : Instr),
    decodeWord s.cfg.R (tableWord s.cfg.R nbits w) = .ok i → step (s.withFetchWord nbits w) = exec i s)

/-- R22, R25, R30: on a shared clock edge each unit does what it does alone, in either order. Before the first reset
edge: notes/assumptions/23.md. -/
def Obligations.SharedEdgeRunsBothUnits : Prop :=
  ∀ (s : State) (d c : Bits) (rest : List Stimulus), s.cfg.Legal → d.length = s.cfg.K → c.length = s.cfg.N →
    s.pending = .both (lineEnc d) (lineDec c) :: rest →
    ∃ t u v, step s = .next t ∧
      exec (.encode d) (s.setPending rest) = .next u ∧ exec (.decode c) u = .next t ∧
      exec (.decode c) (s.setPending rest) = .next v ∧ exec (.encode d) v = .next t

/-- R22, R76, R77: an edge with `rst` = 1 clears the unit's valid register and keeps its data registers, whatever is
offered; a transaction offered in that cycle leaves no trace in the registers; the other unit is untouched. -/
def Obligations.ResetEdgeWins : Prop :=
  (∀ (s : State) (inValid : Logic) (v : LogicVec) (rest : List Stimulus),
    s.cfg.Legal → s.cfg.encPIPE = 1 → EncDrive.legal s.cfg (lineEncRst inValid v) = true →
    s.pending = .encoder (lineEncRst inValid v) :: rest →
    ∃ t, step s = .next t ∧ t.encV = false ∧ t.encCode = s.encCode ∧ t.encObserved = none ∧ t.cfg = s.cfg ∧
      t.decV = s.decV ∧ t.decData = s.decData ∧ t.decCorr = s.decCorr ∧ t.decSyn = s.decSyn) ∧
  (∀ (s : State) (inValid : Logic) (v : LogicVec) (rest : List Stimulus),
    s.cfg.Legal → s.cfg.decPIPE = 1 → DecDrive.legal s.cfg (lineDecRst inValid v) = true →
    s.pending = .decoder (lineDecRst inValid v) :: rest →
    ∃ t, step s = .next t ∧ t.decV = false ∧ t.decData = s.decData ∧ t.decCorr = s.decCorr ∧
      t.decSyn = s.decSyn ∧ t.decObserved = none ∧ t.cfg = s.cfg ∧ t.encV = s.encV ∧ t.encCode = s.encCode)

/-- R22: an edge with `in_valid` = 0 and no reset clears the valid register and holds the data registers, whatever the
unsampled vector holds, X and Z included. Before the first reset edge: notes/assumptions/23.md. -/
def Obligations.IdleEdgeHolds : Prop :=
  (∀ (s : State) (v : LogicVec) (rest : List Stimulus),
    s.cfg.Legal → s.cfg.encPIPE = 1 → v.length = s.cfg.K → s.pending = .encoder (lineEncIdle v) :: rest →
    ∃ t, step s = .next t ∧ t.encV = false ∧ t.encCode = s.encCode ∧
      t.decV = s.decV ∧ t.decData = s.decData ∧ t.decCorr = s.decCorr ∧ t.decSyn = s.decSyn) ∧
  (∀ (s : State) (v : LogicVec) (rest : List Stimulus),
    s.cfg.Legal → s.cfg.decPIPE = 1 → v.length = s.cfg.N → s.pending = .decoder (lineDecIdle v) :: rest →
    ∃ t, step s = .next t ∧ t.decV = false ∧ t.decData = s.decData ∧ t.decCorr = s.decCorr ∧
      t.decSyn = s.decSyn ∧ t.encV = s.encV ∧ t.encCode = s.encCode)

/-- R31, R81: back-to-back transactions. At PIPE = 1 the k-th result is on the ports, valid, right after the k-th edge:
one cycle of latency, one transaction a cycle, in order. Before the first reset edge: notes/assumptions/23.md. -/
def Obligations.BackToBackResultsInOrder : Prop :=
  (∀ (s : State) (ds : List Bits) (rest : List Stimulus) (k : Nat),
    s.cfg.Legal → s.cfg.encPIPE = 1 → (∀ d ∈ ds, d.length = s.cfg.K) →
    s.pending = ds.map (fun d => Stimulus.encoder (lineEnc d)) ++ rest → k < ds.length →
    ∃ t, Sys2Proof.core.run (k + 1) s = .next t ∧ t.encObserved = ds[k]?.map (enc s.cfg.R)) ∧
  (∀ (s : State) (cs : List Bits) (rest : List Stimulus) (k : Nat),
    s.cfg.Legal → s.cfg.decPIPE = 1 → (∀ c ∈ cs, c.length = s.cfg.N) →
    s.pending = cs.map (fun c => Stimulus.decoder (lineDec c)) ++ rest → k < cs.length →
    ∃ t, Sys2Proof.core.run (k + 1) s = .next t ∧ t.decObserved = cs[k]?.map (dec s.cfg.R))

/-- R81, last point, with R50 and R60 for the values: with both units at PIPE = 1 on one clock and the encoder wired to
the decoder, the decoded data is out two edges after it was sampled, without an error or with one bit flipped on the
wire. The flip on the wire is Program 3's, and the link as a lasting connection that carries it is
notes/assumptions/8.md (DEDUCED). Before the first reset edge: notes/assumptions/23.md. -/
def Obligations.ChainedUnitsDecodeTwoEdgesLater : Prop :=
  ∀ (s : State) (d : Bits) (v : LogicVec) (flipAt : Option Nat) (l : DecDrive) (rest : List Stimulus),
    s.cfg.Legal → s.cfg.encPIPE = 1 → s.cfg.decPIPE = 1 → d.length = s.cfg.K → v.length = s.cfg.K →
    DecDrive.legal s.cfg (.linked .zero flipAt) = true → DecDrive.legal s.cfg l = true →
    s.pending = .both (lineEnc d) l :: .both (lineEncIdle v) (.linked .zero flipAt) :: rest →
    ∃ t u, step s = .next t ∧ step t = .next u ∧ t.encObserved = some (enc s.cfg.R d) ∧ u.encObserved = none ∧
      u.decObserved = some { data := d, corrected := flipAt.isSome, syndrome := bitsOfNat s.cfg.R (flipAt.getD 0) }

/-- R19, R36, with R50 and R60 for the values: with both units at PIPE = 0 and the encoder wired to the decoder, the
decoded data is out at once. The link at PIPE = 0 and the FLIP on it are notes/assumptions/8.md (DEDUCED). -/
def Obligations.CombinationalChainDecodesAtOnce : Prop :=
  ∀ (s : State) (d : Bits) (flipAt : Option Nat) (rest : List Stimulus),
    s.cfg.Legal → s.cfg.encPIPE = 0 → s.cfg.decPIPE = 0 → d.length = s.cfg.K →
    DecDrive.legal s.cfg (.linked .zero flipAt) = true →
    s.pending = .both (lineEnc d) (.linked .zero flipAt) :: rest →
    ∃ t, step s = .next t ∧
      t.decObserved = some { data := d, corrected := flipAt.isSome, syndrome := bitsOfNat s.cfg.R (flipAt.getD 0) }

/-- R79: boot at PIPE = 1. Whatever elaborates is ready after one reset edge: both `out_valid` are 0, and the
transactions offered next are answered. -/
def Obligations.BootSequenceWorks : Prop :=
  ∀ (c : Config) (w : Connections) (s : State) (d x : Bits) (v : LogicVec) (y : LogicVec),
    elaborate c w = .ok s → c.encPIPE = 1 → c.decPIPE = 1 → d.length = c.K → x.length = c.N →
    v.length = c.K → y.length = c.N →
    ∃ t u, step (s.setPending [.both (lineEncRst .zero v) (lineDecRst .zero y), .both (lineEnc d) (lineDec x)]) = .next t ∧
      step t = .next u ∧ t.encObserved = none ∧ t.decObserved = none ∧
      u.encObserved = some (enc c.R d) ∧ u.decObserved = some (dec c.R x)

/-- R15: no step changes the configuration. -/
def Obligations.ConfigurationNeverChanges : Prop :=
  ∀ s t : State, step s = .next t → t.cfg = s.cfg

/-- R19, R24: at PIPE = 0 a unit has no state. No step writes its registers, and its outputs are a function of its current
inputs alone. -/
def Obligations.PipeZeroHasNoState : Prop :=
  (∀ s t : State, step s = .next t →
    (s.cfg.encPIPE = 0 → t.encV = s.encV ∧ t.encCode = s.encCode) ∧
    (s.cfg.decPIPE = 0 →
      t.decV = s.decV ∧ t.decData = s.decData ∧ t.decCorr = s.decCorr ∧ t.decSyn = s.decSyn)) ∧
  (∀ s t : State, s.cfg = t.cfg → s.cfg.encPIPE = 0 → s.encPins = t.encPins →
    s.encOutValid = t.encOutValid ∧ s.codeOut = t.codeOut) ∧
  (∀ s t : State, s.cfg = t.cfg → s.cfg.decPIPE = 0 → s.decInValid = t.decInValid → s.codeIn = t.codeIn →
    s.decOutValid = t.decOutValid ∧ s.decOut = t.decOut)

/-- R9, R20, R21, R37: the configuration stays legal and every vector keeps its width. -/
def Obligations.EveryStepKeepsTheInvariant : Prop :=
  ∀ s t : State, s.Inv → step s = .next t → t.Inv

/-- The invariant holds after reset and at power-up, on every legal configuration. -/
def Obligations.InvariantHoldsAfterReset : Prop :=
  State.reset.Inv ∧ ∀ c : Config, c.Legal → (State.resetOf c).Inv ∧ (State.powerUp c).Inv

/-- R76: after reset `enc_v` and `dec_v` are 0, so at PIPE = 1 no output is valid. -/
def Obligations.ResetClearsTheValidRegisters : Prop :=
  ∀ c : Config, (State.resetOf c).encV = false ∧ (State.resetOf c).decV = false ∧
    (c.encPIPE = 1 → (State.resetOf c).encObserved = none) ∧ (c.decPIPE = 1 → (State.resetOf c).decObserved = none)

/-! ## Errors -/

/-- R66: there are no run-time exceptions. From any state of an elaborated pair, every sequence of 2-valued inputs runs to
its end (R38), as long as the testbench's own FLIP positions are in range (R62). -/
def Obligations.LegalInputsAlwaysRun : Prop :=
  ∀ s : State, s.cfg.Legal → (∀ st ∈ s.pending, st.legal s.cfg = true) →
    ∃ t, Sys2Proof.core.run s.pending.length s = .next t ∧ t.pending = [] ∧ t.cfg = s.cfg

/-- R62, R66: the only fault is the testbench's PositionOutOfRange: a step that faults was presented a FLIP at a position
outside [1, N]. -/
def Obligations.OnlyTheTestbenchFaults : Prop :=
  ∀ (s : State) (f : Fault), step s = .fault f →
    ∃ st rest pos, s.pending = st :: rest ∧ st.callsFlip pos = true ∧ ¬(1 ≤ pos ∧ pos ≤ s.cfg.N) ∧
      f = .positionOutOfRange 1 s.cfg.N pos

/-- R39, on a unit driven alone: X and Z on a sampled input are refused: on `data_in` and `code_in` with `in_valid` = 1
at either PIPE, and on `rst` and `in_valid` in every cycle at PIPE = 1. An X or Z on a vector with `in_valid` = 0 is
not. Which port the refusal names where several are X or Z (`rst`, then `in_valid`, then the vector) is the model's
choice, notes/assumptions/18.md; that the vector is refused in a reset cycle too is notes/assumptions/11.md (DEDUCED).
The other forms are `NonBinaryInputsAreRefusedInEveryForm`. -/
def Obligations.NonBinaryInputsAreRefused : Prop :=
  (∀ (s : State) (e : EncDrive) (rest : List Stimulus),
    s.cfg.Legal → s.pending = .encoder e :: rest → e.dataIn.length = s.cfg.K →
    ((e.rst.twoValued = true ∨ s.cfg.encPIPE = 0) → e.inValid = .one → e.dataIn.all Logic.twoValued = false →
      step s = .refused (.invalidBitValue .dataIn)) ∧
    (s.cfg.encPIPE = 1 → e.rst.twoValued = false → step s = .refused (.invalidBitValue .rst)) ∧
    (s.cfg.encPIPE = 1 → e.rst.twoValued = true → e.inValid.twoValued = false →
      step s = .refused (.invalidBitValue .inValid)) ∧
    ((e.rst.twoValued = true ∨ s.cfg.encPIPE = 0) → e.inValid = .zero → ∃ t, step s = .next t)) ∧
  (∀ (s : State) (rst inValid : Logic) (v : LogicVec) (rest : List Stimulus),
    s.cfg.Legal → s.pending = .decoder (.ports rst inValid v) :: rest → v.length = s.cfg.N →
    ((rst.twoValued = true ∨ s.cfg.decPIPE = 0) → inValid = .one → v.all Logic.twoValued = false →
      step s = .refused (.invalidBitValue .codeIn)) ∧
    (s.cfg.decPIPE = 1 → rst.twoValued = false → step s = .refused (.invalidBitValue .rst)) ∧
    (s.cfg.decPIPE = 1 → rst.twoValued = true → inValid.twoValued = false →
      step s = .refused (.invalidBitValue .inValid)) ∧
    ((rst.twoValued = true ∨ s.cfg.decPIPE = 0) → inValid = .zero → ∃ t, step s = .next t))

/-- R67, R68, R70: elaboration. R is checked first, then PIPE, then the widths; the error names a parameter or a width
that is wrong, with its expected and actual value; what passes all checks elaborates. That it is then in `State.powerUp`
is R78 for the registers, and for the input ports the model's choice, notes/assumptions/4.md. -/
def Obligations.ElaborationChecksInOrder : Prop :=
  ∀ (c : Config) (w : Connections),
    (c.R < 2 → elaborate c w = .error (.invalidParameter .rAtLeastTwo c.R)) ∧
    (2 ≤ c.R → ¬(c.encPIPE ≤ 1 ∧ c.decPIPE ≤ 1) →
      ∃ P, (P = c.encPIPE ∨ P = c.decPIPE) ∧ ¬P ≤ 1 ∧ elaborate c w = .error (.invalidParameter .pipeZeroOrOne P)) ∧
    (c.Legal → ¬(w.dataIn = c.K ∧ w.codeOut = c.N ∧ w.codeIn = c.N ∧ w.dataOut = c.K) →
      ∃ port e a, elaborate c w = .error (.lengthMismatch port e a) ∧ a ≠ e ∧
        ((port = .dataIn ∧ e = c.K ∧ a = w.dataIn) ∨ (port = .codeOut ∧ e = c.N ∧ a = w.codeOut) ∨
          (port = .codeIn ∧ e = c.N ∧ a = w.codeIn) ∨ (port = .dataOut ∧ e = c.K ∧ a = w.dataOut))) ∧
    (c.Legal → w.dataIn = c.K → w.codeOut = c.N → w.codeIn = c.N → w.dataOut = c.K →
      elaborate c w = .ok (State.powerUp c))

/-- R67, R68: an operation of a unit that could not elaborate is refused. With R < 2 every operation is; with R ≥ 2
ENCODE is on an encoder whose PIPE is not 0 or 1, and DECODE on such a decoder, each whatever the other unit's PIPE is;
on a legal configuration an operand of a wrong width is. R67 and R68 refuse at elaboration; that `exec` itself answers
the refusal when the operation is presented is the model's choice, notes/assumptions/19.md.
That a FLIP call at a position out of range is then refused for R or the width, and does not fault (R62), is the model's
choice too, notes/assumptions/18.md. -/
def Obligations.UnelaboratedOperationsAreRefused : Prop :=
  ∀ (s : State) (i : Instr),
    (s.cfg.R < 2 → exec i s = .refused (.invalidParameter .rAtLeastTwo s.cfg.R)) ∧
    (2 ≤ s.cfg.R → ¬(s.cfg.encPIPE = 0 ∨ s.cfg.encPIPE = 1) → ∀ d, i = .encode d →
      exec i s = .refused (.invalidParameter .pipeZeroOrOne s.cfg.encPIPE)) ∧
    (2 ≤ s.cfg.R → ¬(s.cfg.decPIPE = 0 ∨ s.cfg.decPIPE = 1) → ∀ c, i = .decode c →
      exec i s = .refused (.invalidParameter .pipeZeroOrOne s.cfg.decPIPE)) ∧
    (s.cfg.Legal → i.operand.length ≠ i.operandWidth s.cfg.R →
      ∃ port, exec i s = .refused (.lengthMismatch port (i.operandWidth s.cfg.R) i.operand.length))

/-! ## Unspecified values -/

/-- R23, R78; 93_implementation_defined.md section 1: unspecified values are never observed once each registered unit has
had a reset edge. Clause 1 (R23): two states that differ only in data registers whose valid register is 0, in unsampled
vectors and in the testbench's own values show the same outputs wherever `out_valid` is 1, and every step keeps it so.
Clause 2 (R78): whatever ALL their registers and ports hold, the valid registers too, two states with the same inputs to
come are such a pair after one step that resets every unit at PIPE = 1. -/
def Obligations.UnspecifiedValuesAreNeverObserved : Prop :=
  (∀ s t : State, s.cfg.Legal → s.sameUpToUnspecified t →
    s.encObserved = t.encObserved ∧ s.decObserved = t.decObserved ∧ sameOutcome (step s) (step t)) ∧
  (∀ (s t : State) (e : EncDrive) (d : DecDrive) (rest : List Stimulus),
    s.cfg.Legal → s.cfg = t.cfg → EncDrive.legal s.cfg e = true → DecDrive.legal s.cfg d = true →
    (s.cfg.encPIPE = 1 → e.rst = .one) → (s.cfg.decPIPE = 1 → d.rst = .one) →
    s.pending = .both e d :: rest → t.pending = .both e d :: rest →
    ∃ u v, step s = .next u ∧ step t = .next v ∧ u.sameUpToUnspecified v)

/-! ## Shared edges, the link, and idle inputs at PIPE = 0 -/

/-- R22, R76, R77: on an edge the units share, the encoder's registers do what R22 says, whatever the decoder's half is:
a reset clears `enc_v` and keeps `enc_code`, whatever else is offered; an idle cycle does the same; a transaction loads
both. Before the first reset edge: notes/assumptions/23.md. -/
def Obligations.SharedEdgeUpdatesTheEncoder : Prop :=
  ∀ (s : State) (e : EncDrive) (d : DecDrive) (rest : List Stimulus),
    s.cfg.Legal → s.cfg.encPIPE = 1 → EncDrive.legal s.cfg e = true → DecDrive.legal s.cfg d = true →
    s.pending = .both e d :: rest →
    ∃ t, step s = .next t ∧ t.cfg = s.cfg ∧ t.tbOut = s.tbOut ∧ t.pending = rest ∧
      (e.rst = .one → s.encoderCleared t ∧ t.encObserved = none) ∧
      (e.rst = .zero → e.inValid = .zero → s.encoderCleared t ∧ t.encObserved = none) ∧
      (∀ x, e = lineEnc x → t.encoderLoaded (enc s.cfg.R x))

/-- R22, R76, R77: the same for the decoder's registers, whatever the encoder's half is, with driven ports: reset, idle
and transaction; and with a link: reset. Before the first reset edge: notes/assumptions/23.md. -/
def Obligations.SharedEdgeUpdatesTheDecoder : Prop :=
  ∀ (s : State) (e : EncDrive) (d : DecDrive) (rest : List Stimulus),
    s.cfg.Legal → s.cfg.decPIPE = 1 → EncDrive.legal s.cfg e = true → DecDrive.legal s.cfg d = true →
    s.pending = .both e d :: rest →
    ∃ t, step s = .next t ∧ t.cfg = s.cfg ∧ t.tbOut = s.tbOut ∧ t.pending = rest ∧
      (d.rst = .one → s.decoderCleared t ∧ t.decObserved = none) ∧
      (∀ v, d = lineDecIdle v → s.decoderCleared t ∧ t.decObserved = none) ∧
      (∀ c, d = lineDec c → t.decoderLoaded (dec s.cfg.R c))

/-- R22, R81: on a shared edge a linked decoder without reset samples the encoder's outputs as they were before the
edge: at encoder PIPE = 1 the registers `enc_v` and `enc_code`, at encoder PIPE = 0 what is on the encoder's inputs now.
With `out_valid` = 0 it goes idle, with 1 it loads the codeword, through FLIP where there is one. The link as a lasting
connection that may carry a FLIP is notes/assumptions/8.md (DEDUCED). Before the first reset edge:
notes/assumptions/23.md. -/
def Obligations.SharedEdgeSamplesTheLink : Prop :=
  ∀ (s : State) (e : EncDrive) (flipAt : Option Nat) (rest : List Stimulus),
    s.cfg.Legal → s.cfg.decPIPE = 1 → EncDrive.legal s.cfg e = true →
    DecDrive.legal s.cfg (.linked .zero flipAt) = true → s.pending = .both e (.linked .zero flipAt) :: rest →
    ∃ t, step s = .next t ∧
      (s.cfg.encPIPE = 1 → s.encV = false → s.decoderCleared t ∧ t.decObserved = none) ∧
      (s.cfg.encPIPE = 1 → s.encV = true → t.decoderLoaded (dec s.cfg.R (linkWord s.cfg.R flipAt s.encCode))) ∧
      (s.cfg.encPIPE = 0 → e.inValid = .zero → s.decoderCleared t ∧ t.decObserved = none) ∧
      (s.cfg.encPIPE = 0 → ∀ x, e = lineEnc x →
        t.decoderLoaded (dec s.cfg.R (linkWord s.cfg.R flipAt (enc s.cfg.R x))))

/-- R22, R76, R81: an edge of a linked decoder's own clock. A reset clears `dec_v` and keeps the data registers; so does
an edge at which the encoder's `out_valid` is 0; with `out_valid` = 1 the decoder loads the encoder's codeword, through
FLIP where there is one. The encoder's ports and registers are untouched. The link is notes/assumptions/8.md (DEDUCED).
Before the first reset edge: notes/assumptions/23.md. -/
def Obligations.LinkedDecoderFollowsTheEncoder : Prop :=
  ∀ (s : State) (rst : Logic) (flipAt : Option Nat) (rest : List Stimulus),
    s.cfg.Legal → s.cfg.decPIPE = 1 → DecDrive.legal s.cfg (.linked rst flipAt) = true →
    s.pending = .decoder (.linked rst flipAt) :: rest →
    ∃ t, step s = .next t ∧ t.cfg = s.cfg ∧ t.encPins = s.encPins ∧ t.encV = s.encV ∧ t.encCode = s.encCode ∧
      (rst = .one → s.decoderCleared t ∧ t.decObserved = none) ∧
      (rst = .zero → s.encOutValid = false → s.decoderCleared t ∧ t.decObserved = none) ∧
      (rst = .zero → s.encOutValid = true →
        t.decoderLoaded (dec s.cfg.R (linkWord s.cfg.R flipAt s.codeOut)))

/-- R19: at PIPE = 0 `out_valid` is `in_valid`, so with `in_valid` = 0 nothing is observed, whatever is on the vector (X
and Z too, R39) and on the `rst` that such a unit does not have: on the encoder, on the decoder, and on a decoder linked
to an encoder whose `out_valid` is 0; alone or on a shared stimulus. Clauses 3 and 4 are about the linked decoder,
beside an encoder of either PIPE: R81 gives the link at PIPE = 1, and the link at PIPE = 0, as a lasting connection that
may carry a FLIP, is notes/assumptions/8.md (DEDUCED).
Beside an encoder at PIPE = 1, clause 4 rests before the first reset edge on notes/assumptions/23.md. -/
def Obligations.IdleAtPipeZeroShowsNothing : Prop :=
  (∀ (s : State) (rst : Logic) (v : LogicVec) (rest : List Stimulus),
    s.cfg.Legal → s.cfg.encPIPE = 0 → v.length = s.cfg.K →
    (s.pending = .encoder { rst := rst, inValid := .zero, dataIn := v } :: rest ∨
      ∃ d, DecDrive.legal s.cfg d = true ∧
        s.pending = .both { rst := rst, inValid := .zero, dataIn := v } d :: rest) →
    ∃ t, step s = .next t ∧ t.encOutValid = false ∧ t.encObserved = none) ∧
  (∀ (s : State) (rst : Logic) (v : LogicVec) (rest : List Stimulus),
    s.cfg.Legal → s.cfg.decPIPE = 0 → v.length = s.cfg.N →
    (s.pending = .decoder (.ports rst .zero v) :: rest ∨
      ∃ e, EncDrive.legal s.cfg e = true ∧ s.pending = .both e (.ports rst .zero v) :: rest) →
    ∃ t, step s = .next t ∧ t.decOutValid = false ∧ t.decObserved = none) ∧
  (∀ (s : State) (rst : Logic) (flipAt : Option Nat) (rest : List Stimulus),
    s.cfg.Legal → s.cfg.decPIPE = 0 → DecDrive.legal s.cfg (.linked rst flipAt) = true → s.encOutValid = false →
    s.pending = .decoder (.linked rst flipAt) :: rest →
    ∃ t, step s = .next t ∧ t.decOutValid = false ∧ t.decObserved = none) ∧
  (∀ (s : State) (r rst : Logic) (v : LogicVec) (flipAt : Option Nat) (rest : List Stimulus),
    s.cfg.Legal → s.cfg.decPIPE = 0 → EncDrive.legal s.cfg { rst := r, inValid := .zero, dataIn := v } = true →
    DecDrive.legal s.cfg (.linked rst flipAt) = true →
    s.pending = .both { rst := r, inValid := .zero, dataIn := v } (.linked rst flipAt) :: rest →
    ∃ t, step s = .next t ∧ t.decOutValid = false ∧ t.decObserved = none)

/-- R19, with R22, R49 and R81: a linked decoder at PIPE = 0 beside an encoder of either PIPE. In every state it shows
DEC of what the encoder shows, through FLIP where there is one, and nothing where the encoder shows nothing (clause 1);
so it does as soon as it is linked (clause 2), and after a shared stimulus, where the encoder shows ENC of the operand
of a transaction and nothing when it is idle or, at PIPE = 1, reset (clause 3). The link at PIPE = 0, as a lasting
connection that may carry a FLIP, is notes/assumptions/8.md (DEDUCED). Before the first reset edge:
notes/assumptions/23.md. -/
def Obligations.CombinationalLinkedDecoderShowsTheEncoder : Prop :=
  (∀ (s : State) (rst : Bool) (flipAt : Option Nat), s.cfg.decPIPE = 0 → s.decPins = .linked rst flipAt →
    s.decObserved = s.encObserved.map fun c => dec s.cfg.R (linkWord s.cfg.R flipAt c)) ∧
  (∀ (s : State) (rst : Logic) (flipAt : Option Nat) (rest : List Stimulus),
    s.cfg.Legal → s.cfg.decPIPE = 0 → DecDrive.legal s.cfg (.linked rst flipAt) = true →
    s.pending = .decoder (.linked rst flipAt) :: rest →
    ∃ t, step s = .next t ∧ t.cfg = s.cfg ∧ t.encPins = s.encPins ∧ t.encV = s.encV ∧ t.encCode = s.encCode ∧
      t.decObserved = s.encObserved.map fun c => dec s.cfg.R (linkWord s.cfg.R flipAt c)) ∧
  (∀ (s : State) (e : EncDrive) (rst : Logic) (flipAt : Option Nat) (rest : List Stimulus),
    s.cfg.Legal → s.cfg.decPIPE = 0 → EncDrive.legal s.cfg e = true → DecDrive.legal s.cfg (.linked rst flipAt) = true →
    s.pending = .both e (.linked rst flipAt) :: rest →
    ∃ t, step s = .next t ∧ t.cfg = s.cfg ∧
      t.decObserved = (t.encObserved.map fun c => dec s.cfg.R (linkWord s.cfg.R flipAt c)) ∧
      (∀ x, e = lineEnc x → t.decObserved = some (dec s.cfg.R (linkWord s.cfg.R flipAt (enc s.cfg.R x)))) ∧
      (e.inValid = .zero → t.decObserved = none) ∧
      (s.cfg.encPIPE = 1 → e.rst = .one → t.decObserved = none))

/-! ## X and Z in every form -/

/-- R39: an X or Z on a sampled input is refused, with its port, in every form of input: on a unit's ports alone at
either PIPE (`in_valid` at PIPE = 0 too: notes/assumptions/10.md, DEDUCED), on `rst` of a linked decoder, in either half
of a shared stimulus, and in the operand of a FLIP call (notes/assumptions/10.md too). Model's choices,
notes/assumptions/18.md: `rst` is named before `in_valid` and that before the vector; a wrong encoder half is reported
whatever the decoder's half is; an X or Z is refused before a FLIP position out of range. A vector in a reset cycle is
notes/assumptions/11.md (DEDUCED). -/
def Obligations.NonBinaryInputsAreRefusedInEveryForm : Prop :=
  (∀ (s : State) (e : EncDrive) (port : Port) (rest : List Stimulus),
    s.cfg.Legal → e.dataIn.length = s.cfg.K → e.nonBinaryPort s.cfg = some port →
    (s.pending = .encoder e :: rest ∨ ∃ d, s.pending = .both e d :: rest) →
    step s = .refused (.invalidBitValue port)) ∧
  (∀ (s : State) (d : DecDrive) (port : Port) (rest : List Stimulus),
    s.cfg.Legal → d.widthFits s.cfg = true → d.nonBinaryPort s.cfg = some port →
    (s.pending = .decoder d :: rest ∨ ∃ e, EncDrive.legal s.cfg e = true ∧ s.pending = .both e d :: rest) →
    step s = .refused (.invalidBitValue port)) ∧
  (∀ (s : State) (v : LogicVec) (pos : Nat) (rest : List Stimulus),
    s.cfg.Legal → v.length = s.cfg.N → v.all Logic.twoValued = false → s.pending = .testbench v pos :: rest →
    step s = .refused (.invalidBitValue .flipOperand))

/-! ## Single errors, as functions -/

/-- R60, on the functions alone: DEC of a codeword with any one bit inverted is the data, `corrected` = 1 and the
position; of the codeword itself it is the data, 0 and 0. -/
def Obligations.DecodeOfASingleError : Prop :=
  ∀ (R : Nat) (d : Bits), d.length = dataK R →
    (∀ p, 1 ≤ p → p ≤ codeN R → dec R (bitsXor (enc R d) (onehot (codeN R) p)) =
      { data := d, corrected := true, syndrome := bitsOfNat R p }) ∧
    dec R (enc R d) = { data := d, corrected := false, syndrome := bitsOfNat R 0 }

/-! ## Progress and the default form -/

/-- R66, as a step lemma: from every state of an elaborated pair, a step that is presented legal inputs answers a next
state; that state is of the same elaborated pair, what was to come after is still to come, and the invariant is kept. -/
def Obligations.LegalInputStepsAndKeepsTheInvariant : Prop :=
  ∀ (s : State) (st : Stimulus) (rest : List Stimulus),
    s.cfg.Legal → s.pending = st :: rest → st.legal s.cfg = true →
    ∃ t, step s = .next t ∧ t.cfg = s.cfg ∧ t.cfg.Legal ∧ t.pending = rest ∧ (s.Inv → t.Inv)

/-- R11: PIPE has the default 0. A pair for which only R is given elaborates, for every R ≥ 2, and both its units are
combinational: each shows the value of what is on its inputs at once. -/
def Obligations.DefaultPipeIsCombinational : Prop :=
  ∀ (R : Nat) (d c : Bits), 2 ≤ R → d.length = dataK R → c.length = codeN R →
    ∃ s t u, elaborate { R := R } { dataIn := dataK R, codeOut := codeN R, codeIn := codeN R, dataOut := dataK R } = .ok s ∧
      s.cfg = { R := R, encPIPE := 0, decPIPE := 0 } ∧
      exec (.encode d) s = .next t ∧ t.encObserved = some (enc R d) ∧
      exec (.decode c) t = .next u ∧ u.decObserved = some (dec R c) ∧
      t.encV = s.encV ∧ t.encCode = s.encCode ∧
      u.decV = s.decV ∧ u.decData = s.decData ∧ u.decCorr = s.decCorr ∧ u.decSyn = s.decSyn
end

