-- ==== Sys2Proof/Laws/Positions.lean ====
section
/-! SUPPORT. Positions, coverage sets and vectors: membership, lengths, reading a bit, and XOR over a set. -/

namespace Sys2Proof.Machine

/-! ## Positions -/

theorem isPow2_iff {p : Nat} : isPow2 p = true ↔ ∃ i, p = 2 ^ i := by
  simp only [isPow2, beq_iff_eq]
  constructor
  · intro h; exact ⟨_, h⟩
  · rintro ⟨i, rfl⟩; rw [Nat.log2_two_pow]

@[simp] theorem isPow2_two_pow (i : Nat) : isPow2 (2 ^ i) = true := isPow2_iff.mpr ⟨i, rfl⟩

@[simp] theorem positions_length (R : Nat) : (positions R).length = codeN R := by simp [positions]

theorem mem_positions {R p : Nat} : p ∈ positions R ↔ 1 ≤ p ∧ p ≤ codeN R := by
  rw [positions, List.mem_range'_1]; omega

theorem positions_nodup (R : Nat) : (positions R).Nodup := List.nodup_range'

theorem mem_dataPositions {R p : Nat} :
    p ∈ dataPositions R ↔ (1 ≤ p ∧ p ≤ codeN R) ∧ isPow2 p = false := by
  simp [dataPositions, mem_positions]

theorem mem_cover {R q p : Nat} : p ∈ cover R q ↔ (1 ≤ p ∧ p ≤ codeN R) ∧ p &&& q ≠ 0 := by
  simp [cover, mem_positions]

theorem and_two_pow_ne_zero {p i : Nat} : p &&& 2 ^ i ≠ 0 ↔ p.testBit i = true := by
  constructor
  · intro h
    by_contra hn
    apply h
    apply Nat.eq_of_testBit_eq
    intro j
    by_cases hij : i = j
    · subst hij; simp_all
    · simp [Nat.testBit_and, hij]
  · intro h h0
    have := congrArg (Nat.testBit · i) h0
    simp [Nat.testBit_and, h] at this

/-- A position lies in cover(2^i) exactly when its bit i is 1 (R59). -/
theorem mem_cover_two_pow {R i p : Nat} :
    p ∈ cover R (2 ^ i) ↔ (1 ≤ p ∧ p ≤ codeN R) ∧ p.testBit i = true := by
  rw [mem_cover, and_two_pow_ne_zero]

theorem codeN_lt (R : Nat) : codeN R < 2 ^ R := by
  have := Nat.two_pow_pos R
  unfold codeN; omega

theorem two_pow_le_codeN {R i : Nat} (h : i < R) : 2 ^ i ≤ codeN R := by
  have := Nat.pow_lt_pow_right (a := 2) (by norm_num) h
  unfold codeN; omega

/-! ## Vectors -/

@[simp] theorem bitsXor_length (a b : Bits) : (bitsXor a b).length = min a.length b.length := by
  simp [bitsXor]

@[simp] theorem onehot_length (n s : Nat) : (onehot n s).length = n := by simp [onehot]

/-- Reading a position of a vector that is given position by position. -/
theorem bitAt_map {R p : Nat} (f : Nat → Bool) (h1 : 1 ≤ p) (h2 : p ≤ codeN R) :
    bitAt ((positions R).map f) p = f p := by
  have : p - 1 < codeN R := by omega
  simp [bitAt, positions, List.getD_eq_getElem?_getD, this]
  congr 1; omega

theorem bitAt_onehot {R p s : Nat} (h1 : 1 ≤ p) (h2 : p ≤ codeN R) :
    bitAt (onehot (codeN R) s) p = (p == s) := bitAt_map _ h1 h2

theorem bitAt_bitsXor {a b : Bits} {p : Nat} (h : a.length = b.length) :
    bitAt (bitsXor a b) p = (bitAt a p ^^ bitAt b p) := by
  unfold bitAt bitsXor
  by_cases hp : p - 1 < a.length
  · have hb : p - 1 < b.length := h ▸ hp
    simp [List.getD_eq_getElem?_getD, hp, hb]
  · have hb : ¬ p - 1 < b.length := h ▸ hp
    simp [List.getD_eq_getElem?_getD, hp, hb]

/-- Two N-bit vectors that agree at every position are equal. -/
theorem bits_ext {n : Nat} {a b : Bits} (ha : a.length = n) (hb : b.length = n)
    (h : ∀ p, 1 ≤ p → p ≤ n → bitAt a p = bitAt b p) : a = b := by
  apply List.ext_getElem (ha.trans hb.symm)
  intro i hi hi'
  have := h (i + 1) (by omega) (by omega)
  simpa [bitAt, List.getD_eq_getElem?_getD, hi, hi'] using this

theorem bitsXor_zeros {n : Nat} {a : Bits} (h : a.length = n) : bitsXor a (onehot n 0) = a := by
  apply bits_ext (n := n) (by simp [h]) h
  intro p h1 h2
  rw [bitAt_bitsXor (by simp [h])]
  have : p - 1 < n := by omega
  have h0 : (1 + (p - 1) == 0) = false := by simp
  simp [onehot, bitAt, List.getD_eq_getElem?_getD, this, h0]

/-! ## XOR over a set -/

@[simp] theorem xorOver_nil (f : Nat → Bool) : xorOver [] f = false := rfl

@[simp] theorem xorOver_cons (i : Nat) (S : List Nat) (f : Nat → Bool) :
    xorOver (i :: S) f = (f i ^^ xorOver S f) := rfl

theorem xorOver_congr {S : List Nat} {f g : Nat → Bool} (h : ∀ i ∈ S, f i = g i) :
    xorOver S f = xorOver S g := by
  induction S with
  | nil => rfl
  | cons i S ih =>
    simp only [xorOver_cons]
    rw [h i (by simp), ih fun j hj => h j (by simp [hj])]

theorem xorOver_xor (S : List Nat) (f g : Nat → Bool) :
    xorOver S (fun i => f i ^^ g i) = (xorOver S f ^^ xorOver S g) := by
  induction S with
  | nil => rfl
  | cons i S ih =>
    simp only [xorOver_cons, ih]
    cases f i <;> cases g i <;> simp

theorem xorOver_false (S : List Nat) : xorOver S (fun _ => false) = false := by
  induction S with
  | nil => rfl
  | cons i S ih => simp [ih]

/-- Splitting a set by a predicate. -/
theorem xorOver_split (S : List Nat) (p : Nat → Bool) (f : Nat → Bool) :
    xorOver S f = (xorOver (S.filter p) f ^^ xorOver (S.filter fun i => !p i) f) := by
  induction S with
  | nil => rfl
  | cons i S ih =>
    by_cases h : p i = true
    · simp [h, ih]
    · simp only [Bool.not_eq_true] at h
      simp [h, ih]
      cases f i <;> cases xorOver (S.filter p) f <;> simp

/-- XOR of a one-hot value over a set without repeats. -/
theorem xorOver_eq {S : List Nat} (h : S.Nodup) (s : Nat) :
    xorOver S (fun p => p == s) = decide (s ∈ S) := by
  induction S with
  | nil => rfl
  | cons i S ih =>
    rw [List.nodup_cons] at h
    simp only [xorOver_cons, ih h.2]
    by_cases hi : i = s
    · subst hi; simp [h.1]
    · have hs : ¬ s = i := fun e => hi e.symm
      simp [beq_eq_false_iff_ne.mpr hi, hs]

end Sys2Proof.Machine
end

