-- ==== Sys2Proof/Laws/Codec.lean ====
section
/-! SUPPORT. The small lemmas of ENC, DEC and FLIP: widths, single bits, and the syndrome's two forms. -/

namespace Sys2Proof.Machine

/-! ## Widths (R37) -/

@[simp] theorem placement_length (R : Nat) (d : Bits) : (placement R d).length = codeN R := by
  simp [placement]

@[simp] theorem enc_length (R : Nat) (d : Bits) : (enc R d).length = codeN R := by simp [enc]

@[simp] theorem extract_length (R : Nat) (w : Bits) : (extract R w).length = dataK R := by simp [extract]

@[simp] theorem syndromeBits_length (R : Nat) (c : Bits) : (syndromeBits R c).length = R := by
  simp [syndromeBits]

@[simp] theorem locate_length (R s : Nat) : (locate R s).length = codeN R := by simp [locate]

theorem correct_length {R : Nat} {c : Bits} (h : c.length = codeN R) : (correct R c).length = codeN R := by
  simp [correct, h]

theorem flipBit_length {R pos : Nat} {c : Bits} (h : c.length = codeN R) :
    (flipBit R c pos).length = codeN R := by
  simp [flipBit, h]

@[simp] theorem idleBits_length (n : Nat) (v : LogicVec) : (idleBits n v).length = v.length := by
  induction v generalizing n with
  | nil => rfl
  | cons b v ih => simp [idleBits, ih]

@[simp] theorem drawBits_length (start width : Nat) : (drawBits start width).length = width := by
  simp [drawBits]

/-! ## Single bits -/

/-- The placement vector holds 0 at a parity position and the data bit elsewhere (R46). -/
theorem bitAt_placement {R p : Nat} (d : Bits) (h1 : 1 ≤ p) (h2 : p ≤ codeN R) :
    bitAt (placement R d) p = if isPow2 p then false else d.getD (dataIdx p) false :=
  bitAt_map _ h1 h2

/-- A bit of ENC (R49). -/
theorem bitAt_enc {R p : Nat} (d : Bits) (h1 : 1 ≤ p) (h2 : p ≤ codeN R) :
    bitAt (enc R d) p =
      if isPow2 p then parityBit R (placement R d) p else d.getD (dataIdx p) false := by
  rw [enc, bitAt_map _ h1 h2]
  split_ifs with h
  · rfl
  · rw [bitAt_placement d h1 h2, if_neg h]

/-- FLIP inverts the bit at its position and no other (R62). -/
theorem bitAt_flipBit {R p pos : Nat} {c : Bits} (h : c.length = codeN R) (h1 : 1 ≤ p) (h2 : p ≤ codeN R) :
    bitAt (flipBit R c pos) p = (bitAt c p ^^ (p == pos)) := by
  rw [flipBit, bitAt_bitsXor (by simp [h]), bitAt_onehot h1 h2]

/-- The corrector inverts the bit the syndrome names and no other (R55). -/
theorem bitAt_correct {R p : Nat} {c : Bits} (h : c.length = codeN R) (h1 : 1 ≤ p) (h2 : p ≤ codeN R) :
    bitAt (correct R c) p = (bitAt c p ^^ (p == syndrome R c)) := by
  rw [correct, locate, bitAt_bitsXor (by simp [h]), bitAt_onehot h1 h2]

theorem getD_extract {R j : Nat} (w : Bits) (h : j < dataK R) :
    (extract R w).getD j false = bitAt w (dataPos R j) := by
  simp [extract, List.getD_eq_getElem?_getD, h]

/-! ## The syndrome's two forms (R52) -/

/-- A sum of distinct powers of two has exactly the bits it was built from. -/
theorem sum_bits (f : Nat → Bool) (R : Nat) :
    ((List.range R).map fun i => if f i then 2 ^ i else 0).sum < 2 ^ R ∧
      ∀ i, i < R → (((List.range R).map fun i => if f i then 2 ^ i else 0).sum).testBit i = f i := by
  induction R with
  | zero => simp
  | succ R ih =>
    obtain ⟨hlt, hb⟩ := ih
    rw [List.range_succ, List.map_append, List.sum_append]
    simp only [List.map_cons, List.map_nil, List.sum_cons, List.sum_nil, Nat.add_zero]
    generalize ((List.range R).map fun i => if f i then 2 ^ i else 0).sum = s at hlt hb ⊢
    constructor
    · rw [Nat.pow_succ]; split_ifs <;> omega
    · intro i hi
      by_cases hiR : i = R
      · subst hiR
        split_ifs with hf
        · rw [Nat.add_comm, Nat.testBit_two_pow_add_eq, Nat.testBit_lt_two_pow hlt, hf]; rfl
        · simpa [Nat.testBit_lt_two_pow hlt] using hf
      · have hi' : i < R := by omega
        split_ifs with hf
        · rw [Nat.add_comm, Nat.testBit_two_pow_add_gt hi', hb i hi']
        · simpa using hb i hi'

theorem syndrome_lt (R : Nat) (c : Bits) : syndrome R c < 2 ^ R := (sum_bits (parityCheck R c) R).1

theorem testBit_syndrome {R i : Nat} (c : Bits) (h : i < R) : (syndrome R c).testBit i = parityCheck R c i :=
  (sum_bits (parityCheck R c) R).2 i h

end Sys2Proof.Machine
end

