-- ==== Sys2Proof/Laws/State.lean ====
section
/-! SUPPORT. What each update of State leaves in each field: one lemma per field per update, and the fields that an edge
does not touch. -/

namespace Sys2Proof.Machine

/-! ## driveEncoder -/

@[simp] theorem State.driveEncoder_cfg (s : State) (rst v : Bool) (d : Bits) :
    (s.driveEncoder rst v d).cfg = s.cfg := rfl
@[simp] theorem State.driveEncoder_encPins (s : State) (rst v : Bool) (d : Bits) :
    (s.driveEncoder rst v d).encPins = { rst := rst, inValid := v, dataIn := d } := rfl
@[simp] theorem State.driveEncoder_decPins (s : State) (rst v : Bool) (d : Bits) :
    (s.driveEncoder rst v d).decPins = s.decPins := rfl
@[simp] theorem State.driveEncoder_encV (s : State) (rst v : Bool) (d : Bits) :
    (s.driveEncoder rst v d).encV = s.encV := rfl
@[simp] theorem State.driveEncoder_encCode (s : State) (rst v : Bool) (d : Bits) :
    (s.driveEncoder rst v d).encCode = s.encCode := rfl
@[simp] theorem State.driveEncoder_decV (s : State) (rst v : Bool) (d : Bits) :
    (s.driveEncoder rst v d).decV = s.decV := rfl
@[simp] theorem State.driveEncoder_decData (s : State) (rst v : Bool) (d : Bits) :
    (s.driveEncoder rst v d).decData = s.decData := rfl
@[simp] theorem State.driveEncoder_decCorr (s : State) (rst v : Bool) (d : Bits) :
    (s.driveEncoder rst v d).decCorr = s.decCorr := rfl
@[simp] theorem State.driveEncoder_decSyn (s : State) (rst v : Bool) (d : Bits) :
    (s.driveEncoder rst v d).decSyn = s.decSyn := rfl
@[simp] theorem State.driveEncoder_tbOut (s : State) (rst v : Bool) (d : Bits) :
    (s.driveEncoder rst v d).tbOut = s.tbOut := rfl
@[simp] theorem State.driveEncoder_pending (s : State) (rst v : Bool) (d : Bits) :
    (s.driveEncoder rst v d).pending = s.pending := rfl
@[simp] theorem State.driveEncoder_draws (s : State) (rst v : Bool) (d : Bits) :
    (s.driveEncoder rst v d).draws = s.draws := rfl

/-! ## driveDecoder -/

@[simp] theorem State.driveDecoder_cfg (s : State) (p : DecPins) :
    (s.driveDecoder p).cfg = s.cfg := rfl
@[simp] theorem State.driveDecoder_encPins (s : State) (p : DecPins) :
    (s.driveDecoder p).encPins = s.encPins := rfl
@[simp] theorem State.driveDecoder_decPins (s : State) (p : DecPins) :
    (s.driveDecoder p).decPins = p := rfl
@[simp] theorem State.driveDecoder_encV (s : State) (p : DecPins) :
    (s.driveDecoder p).encV = s.encV := rfl
@[simp] theorem State.driveDecoder_encCode (s : State) (p : DecPins) :
    (s.driveDecoder p).encCode = s.encCode := rfl
@[simp] theorem State.driveDecoder_decV (s : State) (p : DecPins) :
    (s.driveDecoder p).decV = s.decV := rfl
@[simp] theorem State.driveDecoder_decData (s : State) (p : DecPins) :
    (s.driveDecoder p).decData = s.decData := rfl
@[simp] theorem State.driveDecoder_decCorr (s : State) (p : DecPins) :
    (s.driveDecoder p).decCorr = s.decCorr := rfl
@[simp] theorem State.driveDecoder_decSyn (s : State) (p : DecPins) :
    (s.driveDecoder p).decSyn = s.decSyn := rfl
@[simp] theorem State.driveDecoder_tbOut (s : State) (p : DecPins) :
    (s.driveDecoder p).tbOut = s.tbOut := rfl
@[simp] theorem State.driveDecoder_pending (s : State) (p : DecPins) :
    (s.driveDecoder p).pending = s.pending := rfl
@[simp] theorem State.driveDecoder_draws (s : State) (p : DecPins) :
    (s.driveDecoder p).draws = s.draws := rfl

/-! ## setTbOut -/

@[simp] theorem State.setTbOut_cfg (s : State) (v : Bits) :
    (s.setTbOut v).cfg = s.cfg := rfl
@[simp] theorem State.setTbOut_encPins (s : State) (v : Bits) :
    (s.setTbOut v).encPins = s.encPins := rfl
@[simp] theorem State.setTbOut_decPins (s : State) (v : Bits) :
    (s.setTbOut v).decPins = s.decPins := rfl
@[simp] theorem State.setTbOut_encV (s : State) (v : Bits) :
    (s.setTbOut v).encV = s.encV := rfl
@[simp] theorem State.setTbOut_encCode (s : State) (v : Bits) :
    (s.setTbOut v).encCode = s.encCode := rfl
@[simp] theorem State.setTbOut_decV (s : State) (v : Bits) :
    (s.setTbOut v).decV = s.decV := rfl
@[simp] theorem State.setTbOut_decData (s : State) (v : Bits) :
    (s.setTbOut v).decData = s.decData := rfl
@[simp] theorem State.setTbOut_decCorr (s : State) (v : Bits) :
    (s.setTbOut v).decCorr = s.decCorr := rfl
@[simp] theorem State.setTbOut_decSyn (s : State) (v : Bits) :
    (s.setTbOut v).decSyn = s.decSyn := rfl
@[simp] theorem State.setTbOut_tbOut (s : State) (v : Bits) :
    (s.setTbOut v).tbOut = v := rfl
@[simp] theorem State.setTbOut_pending (s : State) (v : Bits) :
    (s.setTbOut v).pending = s.pending := rfl
@[simp] theorem State.setTbOut_draws (s : State) (v : Bits) :
    (s.setTbOut v).draws = s.draws := rfl

/-! ## addDraws -/

@[simp] theorem State.addDraws_cfg (s : State) (n : Nat) :
    (s.addDraws n).cfg = s.cfg := rfl
@[simp] theorem State.addDraws_encPins (s : State) (n : Nat) :
    (s.addDraws n).encPins = s.encPins := rfl
@[simp] theorem State.addDraws_decPins (s : State) (n : Nat) :
    (s.addDraws n).decPins = s.decPins := rfl
@[simp] theorem State.addDraws_encV (s : State) (n : Nat) :
    (s.addDraws n).encV = s.encV := rfl
@[simp] theorem State.addDraws_encCode (s : State) (n : Nat) :
    (s.addDraws n).encCode = s.encCode := rfl
@[simp] theorem State.addDraws_decV (s : State) (n : Nat) :
    (s.addDraws n).decV = s.decV := rfl
@[simp] theorem State.addDraws_decData (s : State) (n : Nat) :
    (s.addDraws n).decData = s.decData := rfl
@[simp] theorem State.addDraws_decCorr (s : State) (n : Nat) :
    (s.addDraws n).decCorr = s.decCorr := rfl
@[simp] theorem State.addDraws_decSyn (s : State) (n : Nat) :
    (s.addDraws n).decSyn = s.decSyn := rfl
@[simp] theorem State.addDraws_tbOut (s : State) (n : Nat) :
    (s.addDraws n).tbOut = s.tbOut := rfl
@[simp] theorem State.addDraws_pending (s : State) (n : Nat) :
    (s.addDraws n).pending = s.pending := rfl
@[simp] theorem State.addDraws_draws (s : State) (n : Nat) :
    (s.addDraws n).draws = s.draws + n := rfl

/-! ## setPending -/

@[simp] theorem State.setPending_cfg (s : State) (l : List Stimulus) :
    (s.setPending l).cfg = s.cfg := rfl
@[simp] theorem State.setPending_encPins (s : State) (l : List Stimulus) :
    (s.setPending l).encPins = s.encPins := rfl
@[simp] theorem State.setPending_decPins (s : State) (l : List Stimulus) :
    (s.setPending l).decPins = s.decPins := rfl
@[simp] theorem State.setPending_encV (s : State) (l : List Stimulus) :
    (s.setPending l).encV = s.encV := rfl
@[simp] theorem State.setPending_encCode (s : State) (l : List Stimulus) :
    (s.setPending l).encCode = s.encCode := rfl
@[simp] theorem State.setPending_decV (s : State) (l : List Stimulus) :
    (s.setPending l).decV = s.decV := rfl
@[simp] theorem State.setPending_decData (s : State) (l : List Stimulus) :
    (s.setPending l).decData = s.decData := rfl
@[simp] theorem State.setPending_decCorr (s : State) (l : List Stimulus) :
    (s.setPending l).decCorr = s.decCorr := rfl
@[simp] theorem State.setPending_decSyn (s : State) (l : List Stimulus) :
    (s.setPending l).decSyn = s.decSyn := rfl
@[simp] theorem State.setPending_tbOut (s : State) (l : List Stimulus) :
    (s.setPending l).tbOut = s.tbOut := rfl
@[simp] theorem State.setPending_pending (s : State) (l : List Stimulus) :
    (s.setPending l).pending = l := rfl
@[simp] theorem State.setPending_draws (s : State) (l : List Stimulus) :
    (s.setPending l).draws = s.draws := rfl

/-! ## loadDecoder -/

@[simp] theorem State.loadDecoder_cfg (s : State) (r : DecResult) :
    (s.loadDecoder r).cfg = s.cfg := rfl
@[simp] theorem State.loadDecoder_encPins (s : State) (r : DecResult) :
    (s.loadDecoder r).encPins = s.encPins := rfl
@[simp] theorem State.loadDecoder_decPins (s : State) (r : DecResult) :
    (s.loadDecoder r).decPins = s.decPins := rfl
@[simp] theorem State.loadDecoder_encV (s : State) (r : DecResult) :
    (s.loadDecoder r).encV = s.encV := rfl
@[simp] theorem State.loadDecoder_encCode (s : State) (r : DecResult) :
    (s.loadDecoder r).encCode = s.encCode := rfl
@[simp] theorem State.loadDecoder_decV (s : State) (r : DecResult) :
    (s.loadDecoder r).decV = true := rfl
@[simp] theorem State.loadDecoder_decData (s : State) (r : DecResult) :
    (s.loadDecoder r).decData = r.data := rfl
@[simp] theorem State.loadDecoder_decCorr (s : State) (r : DecResult) :
    (s.loadDecoder r).decCorr = r.corrected := rfl
@[simp] theorem State.loadDecoder_decSyn (s : State) (r : DecResult) :
    (s.loadDecoder r).decSyn = r.syndrome := rfl
@[simp] theorem State.loadDecoder_tbOut (s : State) (r : DecResult) :
    (s.loadDecoder r).tbOut = s.tbOut := rfl
@[simp] theorem State.loadDecoder_pending (s : State) (r : DecResult) :
    (s.loadDecoder r).pending = s.pending := rfl
@[simp] theorem State.loadDecoder_draws (s : State) (r : DecResult) :
    (s.loadDecoder r).draws = s.draws := rfl

/-! ## The clock edges -/

@[simp] theorem State.encoderEdge_cfg (s : State) : s.encoderEdge.cfg = s.cfg := by
  unfold State.encoderEdge; split_ifs <;> rfl
@[simp] theorem State.encoderEdge_encPins (s : State) : s.encoderEdge.encPins = s.encPins := by
  unfold State.encoderEdge; split_ifs <;> rfl
@[simp] theorem State.encoderEdge_decPins (s : State) : s.encoderEdge.decPins = s.decPins := by
  unfold State.encoderEdge; split_ifs <;> rfl
@[simp] theorem State.encoderEdge_decV (s : State) : s.encoderEdge.decV = s.decV := by
  unfold State.encoderEdge; split_ifs <;> rfl
@[simp] theorem State.encoderEdge_decData (s : State) : s.encoderEdge.decData = s.decData := by
  unfold State.encoderEdge; split_ifs <;> rfl
@[simp] theorem State.encoderEdge_decCorr (s : State) : s.encoderEdge.decCorr = s.decCorr := by
  unfold State.encoderEdge; split_ifs <;> rfl
@[simp] theorem State.encoderEdge_decSyn (s : State) : s.encoderEdge.decSyn = s.decSyn := by
  unfold State.encoderEdge; split_ifs <;> rfl
@[simp] theorem State.encoderEdge_tbOut (s : State) : s.encoderEdge.tbOut = s.tbOut := by
  unfold State.encoderEdge; split_ifs <;> rfl
@[simp] theorem State.encoderEdge_pending (s : State) : s.encoderEdge.pending = s.pending := by
  unfold State.encoderEdge; split_ifs <;> rfl
@[simp] theorem State.encoderEdge_draws (s : State) : s.encoderEdge.draws = s.draws := by
  unfold State.encoderEdge; split_ifs <;> rfl

@[simp] theorem State.decoderEdge_cfg (s : State) : s.decoderEdge.cfg = s.cfg := by
  unfold State.decoderEdge; split_ifs <;> rfl
@[simp] theorem State.decoderEdge_encPins (s : State) : s.decoderEdge.encPins = s.encPins := by
  unfold State.decoderEdge; split_ifs <;> rfl
@[simp] theorem State.decoderEdge_decPins (s : State) : s.decoderEdge.decPins = s.decPins := by
  unfold State.decoderEdge; split_ifs <;> rfl
@[simp] theorem State.decoderEdge_encV (s : State) : s.decoderEdge.encV = s.encV := by
  unfold State.decoderEdge; split_ifs <;> rfl
@[simp] theorem State.decoderEdge_encCode (s : State) : s.decoderEdge.encCode = s.encCode := by
  unfold State.decoderEdge; split_ifs <;> rfl
@[simp] theorem State.decoderEdge_tbOut (s : State) : s.decoderEdge.tbOut = s.tbOut := by
  unfold State.decoderEdge; split_ifs <;> rfl
@[simp] theorem State.decoderEdge_pending (s : State) : s.decoderEdge.pending = s.pending := by
  unfold State.decoderEdge; split_ifs <;> rfl
@[simp] theorem State.decoderEdge_draws (s : State) : s.decoderEdge.draws = s.draws := by
  unfold State.decoderEdge; split_ifs <;> rfl

@[simp] theorem State.clockEdge_cfg (s : State) : s.clockEdge.cfg = s.cfg := by
  simp [State.clockEdge]
@[simp] theorem State.clockEdge_encPins (s : State) : s.clockEdge.encPins = s.encPins := by
  simp [State.clockEdge]
@[simp] theorem State.clockEdge_decPins (s : State) : s.clockEdge.decPins = s.decPins := by
  simp [State.clockEdge]
@[simp] theorem State.clockEdge_encV (s : State) : s.clockEdge.encV = s.encoderEdge.encV := rfl
@[simp] theorem State.clockEdge_encCode (s : State) : s.clockEdge.encCode = s.encoderEdge.encCode := rfl
@[simp] theorem State.clockEdge_decV (s : State) : s.clockEdge.decV = s.decoderEdge.decV := rfl
@[simp] theorem State.clockEdge_decData (s : State) : s.clockEdge.decData = s.decoderEdge.decData := rfl
@[simp] theorem State.clockEdge_decCorr (s : State) : s.clockEdge.decCorr = s.decoderEdge.decCorr := rfl
@[simp] theorem State.clockEdge_decSyn (s : State) : s.clockEdge.decSyn = s.decoderEdge.decSyn := rfl
@[simp] theorem State.clockEdge_tbOut (s : State) : s.clockEdge.tbOut = s.tbOut := by
  simp [State.clockEdge]
@[simp] theorem State.clockEdge_pending (s : State) : s.clockEdge.pending = s.pending := by
  simp [State.clockEdge]
@[simp] theorem State.clockEdge_draws (s : State) : s.clockEdge.draws = s.draws := by
  simp [State.clockEdge]

/-- A shared edge is the decoder's edge and then the encoder's: the decoder samples what the encoder drove before it. -/
theorem State.clockEdge_eq (s : State) : s.clockEdge = s.decoderEdge.encoderEdge := by
  unfold State.clockEdge State.encoderEdge
  simp only [State.decoderEdge_cfg, State.decoderEdge_encPins]
  unfold State.decoderEdge
  split_ifs <;> rfl

/-! ## The edges, case by case (R19, R22) -/

theorem State.encoderEdge_comb {s : State} (h : s.cfg.encPIPE = 0) : s.encoderEdge = s := by
  simp [State.encoderEdge, h]

theorem State.encoderEdge_reset {s : State} (h : s.cfg.encPIPE = 1) (hr : s.encPins.rst = true) :
    s.encoderEdge = { s with encV := false } := by
  simp [State.encoderEdge, h, hr]

theorem State.encoderEdge_accept {s : State} (h : s.cfg.encPIPE = 1) (hr : s.encPins.rst = false)
    (hv : s.encPins.inValid = true) :
    s.encoderEdge = { s with encV := true, encCode := enc s.cfg.R s.encPins.dataIn } := by
  simp [State.encoderEdge, h, hr, hv]

theorem State.encoderEdge_idle {s : State} (h : s.cfg.encPIPE = 1) (hr : s.encPins.rst = false)
    (hv : s.encPins.inValid = false) : s.encoderEdge = { s with encV := false } := by
  simp [State.encoderEdge, h, hr, hv]

theorem State.decoderEdge_comb {s : State} (h : s.cfg.decPIPE = 0) : s.decoderEdge = s := by
  simp [State.decoderEdge, h]

theorem State.decoderEdge_reset {s : State} (h : s.cfg.decPIPE = 1) (hr : s.decRst = true) :
    s.decoderEdge = { s with decV := false } := by
  simp [State.decoderEdge, h, hr]

theorem State.decoderEdge_accept {s : State} (h : s.cfg.decPIPE = 1) (hr : s.decRst = false)
    (hv : s.decInValid = true) : s.decoderEdge = s.loadDecoder (dec s.cfg.R s.codeIn) := by
  simp [State.decoderEdge, h, hr, hv]

theorem State.decoderEdge_idle {s : State} (h : s.cfg.decPIPE = 1) (hr : s.decRst = false)
    (hv : s.decInValid = false) : s.decoderEdge = { s with decV := false } := by
  simp [State.decoderEdge, h, hr, hv]

end Sys2Proof.Machine
end

