-- ==== Sys2Proof/Laws/Words.lean ====
section
/-! SUPPORT. Reading wires and numbers: what each helper of the decoder does. -/

namespace Sys2Proof

@[simp] theorem Logic.toBool?_ofBool (b : Bool) : (Logic.ofBool b).toBool? = some b := by cases b <;> rfl

theorem Logic.eq_ofBool {l : Logic} {b : Bool} (h : l.toBool? = some b) : l = Logic.ofBool b := by
  cases l <;> cases h
  · rfl
  · rfl

@[simp] theorem ofBits_length (d : Bits) : (ofBits d).length = d.length := by simp [ofBits]

@[simp] theorem toBits?_ofBits (d : Bits) : toBits? (ofBits d) = some d := by
  induction d with
  | nil => rfl
  | cons b d ih =>
    have : ofBits (b :: d) = Logic.ofBool b :: ofBits d := rfl
    simp [this, toBits?, ih]

theorem toBits?_eq_some {v : LogicVec} {d : Bits} : toBits? v = some d ↔ v = ofBits d := by
  constructor
  · intro h
    induction v generalizing d with
    | nil => simp [toBits?] at h; subst h; rfl
    | cons b v ih =>
      unfold toBits? at h
      split at h
      · rename_i x xs hx hxs
        cases h
        rw [ih hxs, Logic.eq_ofBool hx]; rfl
      · cases h
  · rintro rfl; exact toBits?_ofBits d

/-- A vector reads as bits exactly when every wire is 0 or 1 (R39). -/
theorem toBits?_isSome (v : LogicVec) : (toBits? v).isSome = v.all fun b => b.toBool?.isSome := by
  induction v with
  | nil => rfl
  | cons b v ih =>
    unfold toBits?
    cases hb : b.toBool? <;> cases hv : toBits? v <;> simp_all

/-- A sampled vector reads exactly when it has the width and carries bits. -/
theorem readVector_eq_ok {port : Port} {w : Nat} {v : LogicVec} {d : Bits} :
    readVector port w v = .ok d ↔ d.length = w ∧ v = ofBits d := by
  unfold readVector
  constructor
  · intro h
    split_ifs at h with hw
    split at h
    · rename_i e he
      cases h
      have := toBits?_eq_some.mp he
      subst this
      simpa using hw
    · cases h
  · rintro ⟨hd, rfl⟩
    simp [hd]

theorem decodeWord_encoderPort {R : Nat} {v : LogicVec} {i : Instr} :
    decodeWord R (.encoderPort v) = .ok i ↔ ∃ d, i = .encode d ∧ readVector .dataIn (dataK R) v = .ok d := by
  simp only [decodeWord]
  cases readVector .dataIn (dataK R) v <;> simp [Except.map, eq_comm]

theorem decodeWord_decoderPort {R : Nat} {v : LogicVec} {i : Instr} :
    decodeWord R (.decoderPort v) = .ok i ↔ ∃ c, i = .decode c ∧ readVector .codeIn (codeN R) v = .ok c := by
  simp only [decodeWord]
  cases readVector .codeIn (codeN R) v <;> simp [Except.map, eq_comm]

theorem decodeWord_testbenchCall {R pos : Nat} {v : LogicVec} {i : Instr} :
    decodeWord R (.testbenchCall v pos) = .ok i ↔
      ∃ c, i = .flip c pos ∧ readVector .flipOperand (codeN R) v = .ok c := by
  simp only [decodeWord]
  cases readVector .flipOperand (codeN R) v <;> simp [Except.map, eq_comm]

@[simp] theorem bitsOfNat_length (w n : Nat) : (bitsOfNat w n).length = w := by simp [bitsOfNat]

theorem bitsToNat_lt (d : Bits) : bitsToNat d < 2 ^ d.length := by
  induction d with
  | nil => simp [bitsToNat]
  | cons b d ih =>
    simp only [bitsToNat, List.length_cons, Nat.pow_succ]
    cases b <;> simp <;> omega

theorem testBit_bitsToNat (d : Bits) (i : Nat) : (bitsToNat d).testBit i = d.getD i false := by
  induction d generalizing i with
  | nil => simp [bitsToNat]
  | cons b d ih =>
    cases i with
    | zero => cases b <;> simp [bitsToNat, Nat.testBit_zero]
    | succ i =>
      have : (b.toNat + 2 * bitsToNat d) / 2 = bitsToNat d := by cases b <;> simp; omega
      rw [bitsToNat, Nat.testBit_succ, this, ih]; simp

/-- Reading a number back as a vector of the same width. -/
@[simp] theorem bitsOfNat_bitsToNat (d : Bits) : bitsOfNat d.length (bitsToNat d) = d := by
  apply List.ext_getElem (by simp)
  intro i hi hi'
  simp [bitsOfNat, testBit_bitsToNat, List.getD_eq_getElem?_getD, hi']

end Sys2Proof
end

