-- ==== Sys2Proof/Laws/Exec.lean ====
section
/-! SUPPORT. One spec lemma per meaning: when it runs, and the state it gives. -/

namespace Sys2Proof.Machine

/-! ## The elaboration checks (R67, R68, R70) -/

theorem checkR_eq_none {R : Nat} : checkR R = none ↔ 2 ≤ R := by
  unfold checkR; split_ifs with h <;> simp <;> omega

theorem checkPipe_eq_none {P : Nat} : checkPipe P = none ↔ P = 0 ∨ P = 1 := by
  unfold checkPipe; split_ifs with h <;> simp <;> omega

theorem checkWidth_eq_none {port : Port} {e a : Nat} : checkWidth port e a = none ↔ a = e := by
  unfold checkWidth; split_ifs with h <;> simp [h]

theorem checkEncoder_eq_none {c : Config} {n : Nat} :
    checkEncoder c n = none ↔ 2 ≤ c.R ∧ (c.encPIPE = 0 ∨ c.encPIPE = 1) ∧ n = c.K := by
  simp only [checkEncoder, Option.or_eq_none_iff, checkR_eq_none, checkPipe_eq_none, checkWidth_eq_none]

theorem checkDecoder_eq_none {c : Config} {n : Nat} :
    checkDecoder c n = none ↔ 2 ≤ c.R ∧ (c.decPIPE = 0 ∨ c.decPIPE = 1) ∧ n = c.N := by
  simp only [checkDecoder, Option.or_eq_none_iff, checkR_eq_none, checkPipe_eq_none, checkWidth_eq_none]

theorem checkFlip_eq_none {c : Config} {n : Nat} : checkFlip c n = none ↔ 2 ≤ c.R ∧ n = c.N := by
  simp only [checkFlip, Option.or_eq_none_iff, checkR_eq_none, checkWidth_eq_none]

theorem checkPosition_eq_none {R pos : Nat} : checkPosition R pos = none ↔ 1 ≤ pos ∧ pos ≤ codeN R := by
  unfold checkPosition; split_ifs with h <;> simp <;> omega

theorem checkPosition_eq_some {R pos : Nat} {f : Fault} :
    checkPosition R pos = some f ↔ ¬ (1 ≤ pos ∧ pos ≤ codeN R) ∧ f = .positionOutOfRange 1 (codeN R) pos := by
  unfold checkPosition; split_ifs with h <;> simp [eq_comm] <;> omega

/-! ## The meanings -/

/-- ENCODE gives a next state exactly when the encoder elaborates with that operand, and it is this one. -/
theorem execEncode_eq_next {d : Bits} {s t : State} :
    execEncode d s = .next t ↔
      (2 ≤ s.cfg.R ∧ (s.cfg.encPIPE = 0 ∨ s.cfg.encPIPE = 1) ∧ d.length = s.cfg.K) ∧
        t = (s.driveEncoder false true d).encoderEdge := by
  rw [← checkEncoder_eq_none]
  unfold execEncode
  cases h : checkEncoder s.cfg d.length <;> simp [eq_comm]

/-- DECODE gives a next state exactly when the decoder elaborates with that operand, and it is this one. -/
theorem execDecode_eq_next {c : Bits} {s t : State} :
    execDecode c s = .next t ↔
      (2 ≤ s.cfg.R ∧ (s.cfg.decPIPE = 0 ∨ s.cfg.decPIPE = 1) ∧ c.length = s.cfg.N) ∧
        t = (s.driveDecoder (.driven false true c)).decoderEdge := by
  rw [← checkDecoder_eq_none]
  unfold execDecode
  cases h : checkDecoder s.cfg c.length <;> simp [eq_comm]

/-- FLIP gives a next state exactly on an N-bit vector and a position in [1, N], and it is this one. -/
theorem execFlip_eq_next {c : Bits} {pos : Nat} {s t : State} :
    execFlip c pos s = .next t ↔
      ((2 ≤ s.cfg.R ∧ c.length = s.cfg.N) ∧ 1 ≤ pos ∧ pos ≤ s.cfg.N) ∧
        t = s.setTbOut (flipBit s.cfg.R c pos) := by
  rw [← checkFlip_eq_none]
  have hp := checkPosition_eq_none (R := s.cfg.R) (pos := pos)
  rw [Config.N, ← hp]
  unfold execFlip
  cases h : checkFlip s.cfg c.length with
  | some r => simp
  | none => cases h' : checkPosition s.cfg.R pos <;> simp [eq_comm]

/-! ## The ports after an accepted transaction -/

theorem encOutValid_after_encode {s : State} {d : Bits} (h : s.cfg.encPIPE = 0 ∨ s.cfg.encPIPE = 1) :
    (s.driveEncoder false true d).encoderEdge.encOutValid = true := by
  obtain h | h := h
  · rw [State.encoderEdge_comb (by simpa using h)]; simp [State.encOutValid, h]
  · rw [State.encoderEdge_accept (by simpa using h) rfl rfl]; simp [State.encOutValid, h]

theorem codeOut_after_encode {s : State} {d : Bits} (h : s.cfg.encPIPE = 0 ∨ s.cfg.encPIPE = 1) :
    (s.driveEncoder false true d).encoderEdge.codeOut = enc s.cfg.R d := by
  obtain h | h := h
  · rw [State.encoderEdge_comb (by simpa using h)]; simp [State.codeOut, h]
  · rw [State.encoderEdge_accept (by simpa using h) rfl rfl]; simp [State.codeOut, h]

theorem decOutValid_after_decode {s : State} {c : Bits} (h : s.cfg.decPIPE = 0 ∨ s.cfg.decPIPE = 1) :
    (s.driveDecoder (.driven false true c)).decoderEdge.decOutValid = true := by
  obtain h | h := h
  · rw [State.decoderEdge_comb (by simpa using h)]; simp [State.decOutValid, State.decInValid, h]
  · rw [State.decoderEdge_accept (by simpa using h) rfl rfl]; simp [State.decOutValid, h]

theorem decOut_after_decode {s : State} {c : Bits} (h : s.cfg.decPIPE = 0 ∨ s.cfg.decPIPE = 1) :
    (s.driveDecoder (.driven false true c)).decoderEdge.decOut = dec s.cfg.R c := by
  obtain h | h := h
  · rw [State.decoderEdge_comb (by simpa using h)]; simp [State.decOut, State.codeIn, h]
  · rw [State.decoderEdge_accept (by simpa using h) rfl rfl]
    simp [State.decOut, State.codeIn, h]

end Sys2Proof.Machine
end

