-- ==== Sys2Proof/Laws/Cycle.lean ====
section
/-! SUPPORT. What presenting a stimulus can do: one inversion lemma per way of driving the ports, and one for the step. -/

namespace Sys2Proof.Machine

@[simp] theorem andThen_next (s : State) (f : State → Host.Outcome State Fault Refusal) :
    andThen (.next s) f = f s := rfl

@[simp] theorem andThen_fault (r : Fault) (f : State → Host.Outcome State Fault Refusal) :
    andThen (.fault r) f = .fault r := rfl

@[simp] theorem andThen_refused (r : Refusal) (f : State → Host.Outcome State Fault Refusal) :
    andThen (.refused r) f = .refused r := rfl

theorem andThen_eq_next {o : Host.Outcome State Fault Refusal} {f : State → Host.Outcome State Fault Refusal}
    {t : State} : andThen o f = .next t ↔ ∃ s, o = .next s ∧ f s = .next t := by
  cases o <;> simp [andThen]

theorem andThen_eq_fault {o : Host.Outcome State Fault Refusal} {f : State → Host.Outcome State Fault Refusal}
    {r : Fault} : andThen o f = .fault r ↔ o = .fault r ∨ ∃ s, o = .next s ∧ f s = .fault r := by
  cases o <;> simp [andThen]

/-! ## Driving the ports -/

theorem readRst_eq_ok {P : Nat} {b : Logic} {rst : Bool} (h : readRst P b = .ok rst) : P = 0 → rst = false := by
  intro hp
  simpa [readRst, hp] using h.symm

/-- Driving the encoder's ports gives levels that fit the instance, and changes nothing but those ports and the draws. -/
theorem driveEncoderPorts_next {e : EncDrive} {s t : State} (h : driveEncoderPorts e s = .next t) :
    checkEncoder s.cfg e.dataIn.length = none ∧
      ∃ rst v d n, readRst s.cfg.encPIPE e.rst = .ok rst ∧ e.inValid.toBool? = some v ∧ d.length = s.cfg.K ∧
        (v = true → readVector .dataIn s.cfg.K e.dataIn = .ok d) ∧
        (v = false → d = idleBits s.draws e.dataIn) ∧
        t = (s.driveEncoder rst v d).addDraws n ∧ (v = true → n = 0) := by
  unfold driveEncoderPorts at h
  split at h
  · cases h
  · rename_i hc
    refine ⟨hc, ?_⟩
    split at h
    · cases h
    · rename_i rst hr
      split at h
      · cases h
      · rename_i hv
        cases h
        refine ⟨rst, false, _, _, hr, ?_, ?_, by simp, fun _ => rfl, rfl, by simp⟩
        · unfold readWire at hv; split at hv <;> simp_all
        · simpa using (checkEncoder_eq_none.mp hc).2.2
      · rename_i hv
        split at h
        · cases h
        · rename_i d hd
          cases h
          refine ⟨rst, true, d, 0, hr, ?_, (readVector_eq_ok.mp hd).1, fun _ => hd, by simp, rfl, fun _ => rfl⟩
          unfold readWire at hv; split at hv <;> simp_all

/-- Connecting the decoder's ports gives a connection that fits the instance, and changes nothing but it and the draws. -/
theorem driveDecoderPorts_next {d : DecDrive} {s t : State} (h : driveDecoderPorts d s = .next t) :
    checkDecoder s.cfg s.cfg.N = none ∧
      ∃ p n, p.fits s.cfg = true ∧ (s.cfg.decPIPE = 0 → (s.driveDecoder p).decRst = false) ∧
        t = (s.driveDecoder p).addDraws n := by
  unfold driveDecoderPorts at h
  split at h
  · split at h
    · cases h
    · rename_i hc
      have hc' := checkDecoder_eq_none.mp hc
      refine ⟨checkDecoder_eq_none.mpr ⟨hc'.1, hc'.2.1, rfl⟩, ?_⟩
      split at h
      · cases h
      · rename_i rst hr
        split at h
        · cases h
        · cases h
          exact ⟨_, _, by simp [DecPins.fits, hc'.2.2], readRst_eq_ok hr, rfl⟩
        · split at h
          · cases h
          · rename_i c hd
            cases h
            exact ⟨.driven rst true c, 0, by simp [DecPins.fits, (readVector_eq_ok.mp hd).1], readRst_eq_ok hr, rfl⟩
  · split at h
    · cases h
    · rename_i hc
      have hc' := (Option.or_eq_none_iff.mp hc).2
      refine ⟨hc', ?_⟩
      split at h
      · cases h
      · rename_i rst hr
        split at h
        · cases h
        · rename_i hp
          cases h
          rename_i flipAt _ _ _
          refine ⟨.linked rst flipAt, 0, ?_, readRst_eq_ok hr, rfl⟩
          cases flipAt with
          | none => rfl
          | some pos => simpa [DecPins.fits] using checkPosition_eq_none.mp hp

/-- Driving the encoder's ports never faults. -/
theorem driveEncoderPorts_ne_fault {e : EncDrive} {s : State} {f : Fault} :
    driveEncoderPorts e s ≠ .fault f := by
  unfold driveEncoderPorts; intro h
  split at h
  · cases h
  · split at h
    · cases h
    · split at h
      · cases h
      · cases h
      · split at h <;> cases h

/-- Connecting the decoder's ports faults on the testbench's FLIP alone. -/
theorem driveDecoderPorts_fault {d : DecDrive} {s : State} {f : Fault} (h : driveDecoderPorts d s = .fault f) :
    ∃ rst pos, d = .linked rst (some pos) ∧ checkPosition s.cfg.R pos = some f := by
  unfold driveDecoderPorts at h
  split at h
  · split at h
    · cases h
    · split at h
      · cases h
      · split at h
        · cases h
        · cases h
        · split at h <;> cases h
  · split at h
    · cases h
    · split at h
      · cases h
      · split at h
        · rename_i rst flipAt _ _ _ _ _ _ g hg
          cases h
          cases flipAt with
          | none => simp at hg
          | some pos => exact ⟨_, pos, rfl, by simpa using hg⟩
        · cases h

/-- What driving the encoder's ports leaves unchanged. -/
theorem driveEncoderPorts_frame {e : EncDrive} {s t : State} (h : driveEncoderPorts e s = .next t) :
    t.cfg = s.cfg ∧ t.decPins = s.decPins ∧ t.encV = s.encV ∧ t.encCode = s.encCode ∧ t.decV = s.decV ∧
      t.decData = s.decData ∧ t.decCorr = s.decCorr ∧ t.decSyn = s.decSyn ∧ t.tbOut = s.tbOut ∧
      t.pending = s.pending := by
  obtain ⟨_, r, v, d, n, _, _, _, _, _, rfl, _⟩ := driveEncoderPorts_next h
  simp

/-- What connecting the decoder's ports leaves unchanged. -/
theorem driveDecoderPorts_frame {d : DecDrive} {s t : State} (h : driveDecoderPorts d s = .next t) :
    t.cfg = s.cfg ∧ t.encPins = s.encPins ∧ t.encV = s.encV ∧ t.encCode = s.encCode ∧ t.decV = s.decV ∧
      t.decData = s.decData ∧ t.decCorr = s.decCorr ∧ t.decSyn = s.decSyn ∧ t.tbOut = s.tbOut ∧
      t.pending = s.pending := by
  obtain ⟨_, p, n, _, _, rfl⟩ := driveDecoderPorts_next h
  simp

/-- The levels on the encoder's control ports once they are driven. -/
theorem driveEncoderPorts_pins {e : EncDrive} {s t : State} (h : driveEncoderPorts e s = .next t) :
    readRst s.cfg.encPIPE e.rst = .ok t.encPins.rst ∧ e.inValid.toBool? = some t.encPins.inValid := by
  obtain ⟨_, r, v, d, n, hr, hv, _, _, _, rfl, _⟩ := driveEncoderPorts_next h
  exact ⟨hr, hv⟩

/-- The level on the decoder's `rst` once its ports are connected. -/
theorem driveDecoderPorts_rst {d : DecDrive} {s t : State} (h : driveDecoderPorts d s = .next t) :
    readRst s.cfg.decPIPE d.rst = .ok t.decRst := by
  unfold driveDecoderPorts at h
  split at h
  · split at h
    · cases h
    · split at h
      · cases h
      · rename_i hr
        split at h
        · cases h
        · cases h; exact hr
        · split at h
          · cases h
          · cases h; exact hr
  · split at h
    · cases h
    · split at h
      · cases h
      · rename_i hr
        split at h
        · cases h
        · cases h; exact hr

/-- What a linked decoder sees: the encoder's outputs, the codeword through FLIP where there is one. -/
theorem driveDecoderPorts_linked {rst : Logic} {flipAt : Option Nat} {s t : State}
    (h : driveDecoderPorts (.linked rst flipAt) s = .next t) :
    t.decInValid = s.encOutValid ∧ t.codeIn = linkWord s.cfg.R flipAt s.codeOut := by
  unfold driveDecoderPorts at h
  simp only at h
  split at h
  · cases h
  · split at h
    · cases h
    · split at h
      · cases h
      · cases h
        exact ⟨rfl, by cases flipAt <;> rfl⟩

/-- An edge with `rst` = 1 or `in_valid` = 0 clears the encoder's valid register and keeps its data. -/
theorem State.encoderEdge_cleared {s : State} (h : s.cfg.encPIPE = 1)
    (hc : s.encPins.rst = true ∨ s.encPins.inValid = false) : s.encoderCleared s.encoderEdge := by
  cases hr : s.encPins.rst
  · rw [State.encoderEdge_idle h hr (hc.resolve_left (by simp [hr]))]; exact ⟨rfl, rfl⟩
  · rw [State.encoderEdge_reset h hr]; exact ⟨rfl, rfl⟩

/-- An edge with `rst` = 1 or `in_valid` = 0 clears the decoder's valid register and keeps its data. -/
theorem State.decoderEdge_cleared {s : State} (h : s.cfg.decPIPE = 1)
    (hc : s.decRst = true ∨ s.decInValid = false) : s.decoderCleared s.decoderEdge := by
  cases hr : s.decRst
  · rw [State.decoderEdge_idle h hr (hc.resolve_left (by simp [hr]))]; exact ⟨rfl, rfl, rfl, rfl⟩
  · rw [State.decoderEdge_reset h hr]; exact ⟨rfl, rfl, rfl, rfl⟩

/-! ## A transaction is the same edge as any other -/

/-- Presenting inputs to the encoder is driving its ports and then its clock edge; a transaction is no exception. -/
theorem present_encoder (e : EncDrive) (s : State) :
    present (.encoder e) s = andThen (driveEncoderPorts e s) fun s => .next s.encoderEdge := by
  unfold present
  simp only
  split
  · rename_i i hi
    unfold encoderTransaction at hi
    split at hi
    · rename_i hr hv hd
      cases hi
      obtain ⟨d, rfl, hx⟩ := decodeWord_encoderPort.mp hd
      obtain ⟨hl, hw⟩ := readVector_eq_ok.mp hx
      have hlen : e.dataIn.length = d.length := by rw [hw]; simp
      have hwire : readWire .inValid Logic.one = .ok true := rfl
      simp only [exec, execEncode, driveEncoderPorts, hlen]
      cases checkEncoder s.cfg d.length with
      | some r => rfl
      | none => simp [hr, hv, hwire, hx, Config.K]
    · cases hi
  · rfl

/-- Presenting inputs to the decoder is connecting its ports and then its clock edge; a transaction is no exception. -/
theorem present_decoder (d : DecDrive) (s : State) :
    present (.decoder d) s = andThen (driveDecoderPorts d s) fun s => .next s.decoderEdge := by
  unfold present
  simp only
  split
  · rename_i i hi
    unfold decoderTransaction at hi
    split at hi
    · cases hi
    · rename_i rst inValid codeIn
      split at hi
      · rename_i hr hd
        cases hi
        obtain ⟨c, rfl, hx⟩ := decodeWord_decoderPort.mp hd
        obtain ⟨hl, hw⟩ := readVector_eq_ok.mp hx
        have hlen : codeIn.length = c.length := by rw [hw]; simp
        have hwire : readWire .inValid Logic.one = .ok true := rfl
        simp only [exec, execDecode, driveDecoderPorts, hlen]
        cases checkDecoder s.cfg c.length with
        | some r => rfl
        | none => simp [hr, hwire, hx, Config.N]
      · cases hi
  · rfl

/-- What a step that gives a next state took and presented. -/
theorem step_eq_next {s t : State} :
    step s = .next t ↔ ∃ st rest, s.pending = st :: rest ∧ present st (s.setPending rest) = .next t := by
  unfold step
  cases s.pending with
  | nil => simp
  | cons st rest => simp

end Sys2Proof.Machine
end

