-- ==== Sys2Proof/Laws/PerInstr.lean ====
section
/-! SUPPORT. What holds of every operation as syntax, one lemma per constructor: the port word of an operation presents a
2-valued vector, as wide as the operand, to the operation's own unit. -/

namespace Sys2Proof

/-- The vector a port word carries. -/
def PortWord.vector : PortWord → LogicVec
  | .encoderPort v => v
  | .decoderPort v => v
  | .testbenchCall v _ => v

namespace Laws.WordCarriesOperand

/-- The port word of i carries i's operand, bit for bit. -/
def Statement (i : Instr) : Prop :=
  toBits? (encodeWord i).vector = some i.operand ∧ (encodeWord i).vector.length = i.operand.length

theorem encode (d : Bits) : Statement (.encode d) := by
  simp [Statement, encodeWord, PortWord.vector, Instr.operand]

theorem decode (c : Bits) : Statement (.decode c) := by
  simp [Statement, encodeWord, PortWord.vector, Instr.operand]

theorem flip (c : Bits) (pos : Nat) : Statement (.flip c pos) := by
  simp [Statement, encodeWord, PortWord.vector, Instr.operand]

end Laws.WordCarriesOperand

end Sys2Proof
end

