-- ==== Sys2Proof/Tests/Slice0.lean ====
section
/-! SUPPORT. The model's own tests: ill-formed operations, words written out from the spec's encodings, the spec's own
vectors, and for each statement with hypotheses a concrete input that meets them. -/

namespace Sys2Proof.Tests

open Sys2Proof.Machine

/-! ## WellFormed: each check refuses an ill-formed operation (R37, R68) -/

theorem test_wellFormed_encode_width : (Instr.encode [true, false, true, true, false]).wellFormed 3 = false := by decide

theorem test_wellFormed_decode_width : (Instr.decode [true, false, true, true]).wellFormed 3 = false := by decide

theorem test_wellFormed_flip_width : (Instr.flip [true, false, true, true] 1).wellFormed 3 = false := by decide

theorem test_wellFormed_accepts : (Instr.encode [true, false, true, true]).wellFormed 3 = true ∧
    (Instr.decode [false, true, true, false, false, true, true]).wellFormed 3 = true ∧
    (Instr.flip [false, true, true, false, false, true, true] 8).wellFormed 3 = true := by decide

/-! ## Decoding words written out from the spec (opcode_table.json; R40, R41; 95_test_vectors.md L1, 2.1) -/

theorem test_decode_encode_word :
    decodeWord 3 (.encoderPort [.one, .zero, .one, .one]) = .ok (.encode [true, false, true, true]) := rfl

theorem test_decode_decode_word :
    decodeWord 3 (.decoderPort [.zero, .one, .zero, .zero, .zero, .one, .one]) =
      .ok (.decode [false, true, false, false, false, true, true]) := rfl

theorem test_decode_flip_word :
    decodeWord 3 (.testbenchCall [.zero, .one, .one, .zero, .zero, .one, .one] 3) =
      .ok (.flip [false, true, true, false, false, true, true] 3) := rfl

theorem test_decode_refuses_width_and_x :
    decodeWord 3 (.encoderPort [.one, .zero, .one, .one, .zero]) = .error (.lengthMismatch .dataIn 4 5) ∧
    decodeWord 3 (.encoderPort [.one, .x, .one, .one]) = .error (.invalidBitValue .dataIn) ∧
    decodeWord 3 (.testbenchCall [.one, .z, .one, .one, .one, .one, .one] 1) =
      .error (.invalidBitValue .flipOperand) := ⟨rfl, rfl, rfl⟩

/-- The port values of 95_test_vectors.md L1: data 0xD and code 0x62. -/
theorem test_decodeTableWord : decodeTableWord 8 0xD = some (.encode [true, false, true, true]) ∧
    decodeTableWord 8 (0x62 + 0x80) = some (.decode [false, true, false, false, false, true, true]) ∧
    decodeTableWord 16 (0x66 + 0x80 * (3 + 2)) = some (.flip [false, true, true, false, false, true, true] 3) ∧
    decodeTableWord 8 0x1D = none := by decide

/-! ## The spec's vectors, one step each (95_test_vectors.md) -/

/-- A registered pair and a combinational pair, right after reset. -/
def reg (R : Nat) : State := State.resetOf { R := R, encPIPE := 1, decPIPE := 1 }
def comb (R : Nat) : State := State.resetOf { R := R, encPIPE := 0, decPIPE := 0 }

/-- Data [1,0,1,1] and its codeword 0x66 at R = 3. -/
def data3 : Bits := [true, false, true, true]
def code3 : Bits := [false, true, true, false, false, true, true]

/-- What an outcome shows of one field. -/
def shows {α : Type} (o : Host.Outcome State Fault Refusal) (f : State → α) : Option α :=
  match o with
  | .next s => some (f s)
  | .fault _ => none
  | .refused _ => none

/-- 2.2: ENC(0xD) = 0x66 at R = 3, at PIPE = 1 and at PIPE = 0. -/
theorem test_encode_0xD : shows (exec (.encode (bitsOfNat 4 0xD)) (reg 3)) State.encCode = some (bitsOfNat 7 0x66) ∧
    shows (exec (.encode (bitsOfNat 4 0xD)) (comb 3)) State.codeOut = some (bitsOfNat 7 0x66) := by decide

/-- 2.2: ENC(0x400) = 0x408b at R = 4, data bit 10 at position 15 under all four parity bits. -/
theorem test_encode_0x400 :
    shows (exec (.encode (bitsOfNat 11 0x400)) (reg 4)) State.encCode = some (bitsOfNat 15 0x408b) := by decide

/-- L1-b: DEC(0x62) = (0xD, 1, 3) at R = 3. -/
theorem test_decode_0x62 : shows (exec (.decode (bitsOfNat 7 0x62)) (reg 3)) State.decObserved =
    some (some { data := bitsOfNat 4 0xD, corrected := true, syndrome := bitsOfNat 3 3 }) := by decide

/-- 2.3: three errors that hide: DEC(0x61) = (0xC, 0, 0) at R = 3. -/
theorem test_decode_0x61 : shows (exec (.decode (bitsOfNat 7 0x61)) (comb 3)) State.decObserved =
    some (some { data := bitsOfNat 4 0xC, corrected := false, syndrome := bitsOfNat 3 0 }) := by decide

/-- 2.4: FLIP(0x66, 7) = 0x26 at R = 3. -/
theorem test_flip_last : shows (exec (.flip (bitsOfNat 7 0x66) 7) (reg 3)) State.tbOut = some (bitsOfNat 7 0x26) := by
  decide

/-- 2.4: FLIP(0x66, 0) and FLIP(0x66, 8) raise PositionOutOfRange(expected [1,7]). -/
theorem test_flip_out_of_range :
    exec (.flip (bitsOfNat 7 0x66) 0) (reg 3) = .fault (.positionOutOfRange 1 7 0) ∧
    exec (.flip (bitsOfNat 7 0x66) 8) (reg 3) = .fault (.positionOutOfRange 1 7 8) := ⟨rfl, rfl⟩

/-- 2.5: reset wins over the transaction offered with it (R77). -/
theorem test_reset_wins : shows (step ((reg 3).setPending [.decoder (lineDecRst .one (ofBits (bitsOfNat 7 0x62)))]))
    State.decV = some false := by decide

/-- 2.1: R is checked before PIPE, and a width names what it expected. -/
theorem test_elaborate :
    (match elaborate { R := 0, encPIPE := 5, decPIPE := 5 } { dataIn := 0, codeOut := 0, codeIn := 0, dataOut := 0 } with
      | .error r => some r | .ok _ => none) = some (.invalidParameter .rAtLeastTwo 0) ∧
    (match elaborate { R := 3, encPIPE := 0, decPIPE := 0 } { dataIn := 5, codeOut := 7, codeIn := 7, dataOut := 4 } with
      | .error r => some r | .ok _ => none) = some (.lengthMismatch .dataIn 4 5) := by decide

/-- R11: an instance that names R alone has PIPE = 0 on both units, and elaborates. -/
theorem test_default_pipe : ({ R := 3 } : Config).encPIPE = 0 ∧ ({ R := 3 } : Config).decPIPE = 0 ∧
    (match elaborate { R := 3 } { dataIn := 4, codeOut := 7, codeIn := 7, dataOut := 4 } with
      | .error _ => none | .ok s => some s.cfg.encPIPE) = some 0 := ⟨rfl, rfl, rfl⟩

/-- Log 18: where both halves of a shared edge are wrong, the encoder's X is reported, not the decoder's FLIP position; and
a FLIP call of a wrong width is refused for the width, not for its position. -/
theorem test_order_of_failures :
    step ((reg 3).setPending [.both { rst := .zero, inValid := .x, dataIn := ofBits data3 } (.linked .zero (some 9))]) =
      .refused (.invalidBitValue .inValid) ∧
    exec (.flip [true] 9) (reg 3) = .refused (.lengthMismatch .flipOperand 7 1) := ⟨rfl, rfl⟩

/-- R65, D17: the cause codes. -/
theorem test_cause_codes : (Refusal.invalidParameter .rAtLeastTwo 1).cause = some 1 ∧
    (Refusal.lengthMismatch .dataIn 4 5).cause = some 2 ∧ (Fault.positionOutOfRange 1 7 8).cause = 3 ∧
    (Refusal.invalidBitValue .dataIn).cause = some 4 := ⟨rfl, rfl, rfl, rfl⟩

/-- The host's placement runs as the first transaction after reset. -/
theorem test_withFetchWord :
    shows (step (State.reset.withFetchWord 8 0xD)) State.encCode = some (bitsOfNat 7 0x66) := by decide

/-! ## Witnesses: inputs that meet the hypotheses of each statement, at the edges of their ranges -/

theorem witness_ParityPositionsArePowersOfTwo : 1 ≤ 1 ∧ 1 ≤ codeN 3 ∧ 1 ≤ 7 ∧ 7 ≤ codeN 3 := by decide

theorem witness_DataPositionsBijection : 0 < dataK 3 ∧ 3 < dataK 3 ∧
    (1 ≤ 3 ∧ 3 ≤ codeN 3 ∧ isPow2 3 = false) ∧ (1 ≤ 7 ∧ 7 ≤ codeN 3 ∧ isPow2 7 = false) := by decide

theorem witness_DecodeAndEncodeAgree : (Instr.flip code3 7).wellFormed 3 = true ∧
    decodeWord 3 (.decoderPort (ofBits code3)) = .ok (.decode code3) := ⟨rfl, rfl⟩

theorem witness_TableWordRoundTrip : (Instr.flip code3 7).wellFormed 3 = true ∧
    encodeTableWord 3 (.flip code3 7) < 2 ^ 11 := by decide

theorem witness_EncodeCompletes : (2 ≤ (reg 2).cfg.R ∧ (reg 2).cfg.encPIPE = 1 ∧ [true].length = (reg 2).cfg.K) ∧
    (2 ≤ (comb 3).cfg.R ∧ (comb 3).cfg.encPIPE = 0 ∧ data3.length = (comb 3).cfg.K) ∧
    (1 ≤ 3 ∧ 3 ≤ (reg 2).cfg.N ∧ isPow2 3 = false) ∧ 0 < (reg 2).cfg.R ∧ 1 < (reg 2).cfg.R := by decide

theorem witness_EncodeFrame : ∃ t, exec (.encode data3) (comb 3) = .next t ∧ (comb 3).cfg.encPIPE = 0 := ⟨_, rfl, rfl⟩

theorem witness_ParityIsEven : 0 < 3 ∧ 2 < 3 := by decide

/-- Two vectors that differ at the parity positions 2 and 4 alone. -/
theorem witness_ParityBitsAreIndependent : (0 : Nat) ≠ 1 ∧ 0 < 3 ∧
    (∀ p, 1 ≤ p → p ≤ codeN 3 → isPow2 p = false →
      bitAt [true, false, true, false, true, true, true] p = bitAt [true, true, true, true, true, true, true] p) ∧
    bitAt [true, false, true, false, true, true, true] (2 ^ 0) =
      bitAt [true, true, true, true, true, true, true] (2 ^ 0) ∧ 2 < 3 ∧ [4, 1, 2].Perm (parityPositions 3) := by
  refine ⟨by decide, by decide, ?_, by decide, by decide, by decide⟩
  intro p h1 h2
  have h : p < 8 := Nat.lt_succ_of_le h2
  revert p
  decide

theorem witness_EncodeIsLinear : data3.length = dataK 3 ∧ [false, true, true, true].length = dataK 3 := by decide

theorem witness_EncodeCornerCases : 2 ≤ 2 ∧ 0 < dataK 2 ∧ 3 < dataK 3 := by decide

theorem witness_EncodedWordHasSyndromeZero : data3.length = dataK 3 := by decide

theorem witness_DecodeCompletes : (2 ≤ (reg 2).cfg.R ∧ (reg 2).cfg.decPIPE = 1 ∧ [true, true, false].length = (reg 2).cfg.N) ∧
    (2 ≤ (comb 3).cfg.R ∧ (comb 3).cfg.decPIPE = 0 ∧ code3.length = (comb 3).cfg.N) ∧
    0 < (reg 2).cfg.R ∧ 1 < (reg 2).cfg.R ∧ 0 < (reg 2).cfg.K ∧ 3 < (comb 3).cfg.K := by decide

theorem witness_DecodeFrame : ∃ t, exec (.decode code3) (comb 3) = .next t ∧ (comb 3).cfg.decPIPE = 0 := ⟨_, rfl, rfl⟩

theorem witness_SyndromeIsANumberUpToN : 0 < 3 ∧ 2 < 3 := by decide

/-- The named position at its two ends, and no named position. -/
theorem witness_CorrectorInvertsTheNamedBit : 1 ≤ 7 ∧ 7 ≤ codeN 3 ∧ code3.length = codeN 3 ∧ syndrome 3 code3 = 0 ∧
    syndrome 3 (bitsOfNat 7 0x67) = 1 ∧ syndrome 3 (bitsOfNat 7 0x26) = 7 ∧ (bitsOfNat 7 0x26).length = codeN 3 := by
  decide

theorem witness_SyndromeIsLinear : code3.length = codeN 3 ∧ (1 ≤ 1 ∧ 1 ≤ codeN 3) ∧ (1 ≤ 7 ∧ 7 ≤ codeN 3) ∧
    data3.length = dataK 3 ∧ PositionSet 3 [1, 7] := by decide

theorem witness_EverySingleErrorIsCorrected : (reg 3).cfg.Legal ∧ (comb 3).cfg.Legal ∧ data3.length = (reg 3).cfg.K ∧
    (1 ≤ 1 ∧ 1 ≤ (reg 3).cfg.N) ∧ (1 ≤ 7 ∧ 7 ≤ (reg 3).cfg.N) := by decide

theorem witness_MultipleErrorsDecodeExactly : data3.length = dataK 3 ∧ PositionSet 3 [1, 2, 3] ∧ [1, 2, 3] ≠ [] ∧
    xorAll [1, 2, 3] = 0 ∧ PositionSet 3 [1, 7] ∧ [1, 7].length = 2 ∧ (1 ≤ 7 ∧ 7 ≤ codeN 3) := by decide

theorem witness_WorkingCopyIsAlwaysACodeword : (bitsOfNat 7 0x65).length = codeN 3 := by decide

theorem witness_DecodeCornerCases : 2 ≤ 2 := by decide

theorem witness_FlipCompletesInRangeOnly : 2 ≤ (reg 3).cfg.R ∧ code3.length = (reg 3).cfg.N ∧
    (1 ≤ 1 ∧ 1 ≤ (reg 3).cfg.N) ∧ (1 ≤ 7 ∧ 7 ≤ (reg 3).cfg.N) ∧ 0 < 1 ∧ (reg 3).cfg.N < 8 := by decide

theorem witness_FlipIsAnInvolution : 2 ≤ (reg 3).cfg.R ∧ code3.length = (reg 3).cfg.N ∧
    (1 ≤ 1 ∧ 1 ≤ (reg 3).cfg.N) ∧ (1 ≤ 7 ∧ 7 ≤ (reg 3).cfg.N) := by decide

theorem witness_FlipAgreesWithCorrector : 2 ≤ (reg 3).cfg.R ∧ (bitsOfNat 7 0x26).length = (reg 3).cfg.N ∧
    syndrome (reg 3).cfg.R (bitsOfNat 7 0x26) ≠ 0 := by decide

theorem witness_StepRunsTheDecodedOperation :
    ((reg 3).setPending [(PortWord.encoderPort (ofBits data3)).stimulus]).pending =
      (PortWord.encoderPort (ofBits data3)).stimulus :: [] ∧
    decodeWord (reg 3).cfg.R (.encoderPort (ofBits data3)) = .ok (.encode data3) ∧
    decodeWord (reg 3).cfg.R (tableWord (reg 3).cfg.R 8 0xD) = .ok (.encode data3) := ⟨rfl, rfl, rfl⟩

theorem witness_SharedEdgeRunsBothUnits :
    ((reg 3).setPending [.both (lineEnc data3) (lineDec code3)]).pending = .both (lineEnc data3) (lineDec code3) :: [] ∧
    (reg 3).cfg.Legal ∧ data3.length = (reg 3).cfg.K ∧ code3.length = (reg 3).cfg.N := by decide

theorem witness_ResetEdgeWins : (reg 3).cfg.Legal ∧ (reg 3).cfg.encPIPE = 1 ∧ (reg 3).cfg.decPIPE = 1 ∧
    EncDrive.legal (reg 3).cfg (lineEncRst .one (ofBits data3)) = true ∧
    DecDrive.legal (reg 3).cfg (lineDecRst .one (ofBits code3)) = true ∧
    ((reg 3).setPending [.encoder (lineEncRst .one (ofBits data3))]).pending =
      .encoder (lineEncRst .one (ofBits data3)) :: [] ∧
    ((reg 3).setPending [.decoder (lineDecRst .one (ofBits code3))]).pending =
      .decoder (lineDecRst .one (ofBits code3)) :: [] := by decide

theorem witness_IdleEdgeHolds : (reg 3).cfg.Legal ∧ (reg 3).cfg.encPIPE = 1 ∧ (reg 3).cfg.decPIPE = 1 ∧
    [Logic.x, .z, .one, .zero].length = (reg 3).cfg.K ∧ (ofBits code3).length = (reg 3).cfg.N ∧
    ((reg 3).setPending [.encoder (lineEncIdle [.x, .z, .one, .zero])]).pending =
      .encoder (lineEncIdle [.x, .z, .one, .zero]) :: [] ∧
    ((reg 3).setPending [.decoder (lineDecIdle (ofBits code3))]).pending =
      .decoder (lineDecIdle (ofBits code3)) :: [] := by decide

theorem witness_BackToBackResultsInOrder : (reg 3).cfg.Legal ∧ (reg 3).cfg.encPIPE = 1 ∧ (reg 3).cfg.decPIPE = 1 ∧
    (∀ d ∈ [data3, data3], d.length = (reg 3).cfg.K) ∧ (∀ c ∈ [code3, code3], c.length = (reg 3).cfg.N) ∧
    ((reg 3).setPending [.encoder (lineEnc data3), .encoder (lineEnc data3)]).pending =
      [data3, data3].map (fun d => Stimulus.encoder (lineEnc d)) ++ [] ∧
    ((reg 3).setPending [.decoder (lineDec code3), .decoder (lineDec code3)]).pending =
      [code3, code3].map (fun c => Stimulus.decoder (lineDec c)) ++ [] ∧
    0 < [data3, data3].length ∧ 1 < [data3, data3].length := by decide

theorem witness_ChainedUnitsDecodeTwoEdgesLater : (reg 3).cfg.Legal ∧ (reg 3).cfg.encPIPE = 1 ∧ (reg 3).cfg.decPIPE = 1 ∧
    data3.length = (reg 3).cfg.K ∧ (ofBits data3).length = (reg 3).cfg.K ∧
    DecDrive.legal (reg 3).cfg (.linked .zero (some 1)) = true ∧
    DecDrive.legal (reg 3).cfg (.linked .zero (some 7)) = true ∧ DecDrive.legal (reg 3).cfg (.linked .zero none) = true ∧
    ((reg 3).setPending [.both (lineEnc data3) (.linked .zero none),
      .both (lineEncIdle (ofBits data3)) (.linked .zero (some 7))]).pending =
      .both (lineEnc data3) (.linked .zero none) ::
        .both (lineEncIdle (ofBits data3)) (.linked .zero (some 7)) :: [] := by decide

theorem witness_CombinationalChainDecodesAtOnce : (comb 3).cfg.Legal ∧ (comb 3).cfg.encPIPE = 0 ∧
    (comb 3).cfg.decPIPE = 0 ∧ data3.length = (comb 3).cfg.K ∧
    ∀ flipAt ∈ [none, some 1, some 7], DecDrive.legal (comb 3).cfg (.linked .zero flipAt) = true ∧
      ((comb 3).setPending [.both (lineEnc data3) (.linked .zero flipAt)]).pending =
        .both (lineEnc data3) (.linked .zero flipAt) :: [] := by decide

/-- The configuration of `reg 3`, and the widths that it connects to. -/
def cfg3 : Config := { R := 3, encPIPE := 1, decPIPE := 1 }
def widths3 : Connections := { dataIn := 4, codeOut := 7, codeIn := 7, dataOut := 4 }

theorem witness_BootSequenceWorks : (∃ s, elaborate cfg3 widths3 = .ok s) ∧ cfg3.encPIPE = 1 ∧ cfg3.decPIPE = 1 ∧
    data3.length = cfg3.K ∧ code3.length = cfg3.N ∧ (ofBits data3).length = cfg3.K ∧ (ofBits code3).length = cfg3.N :=
  ⟨⟨_, rfl⟩, by decide⟩

theorem witness_ConfigurationNeverChanges : ∃ t, step ((reg 3).setPending [.encoder (lineEnc data3)]) = .next t :=
  ⟨_, rfl⟩

theorem witness_PipeZeroHasNoState : (∃ t, step ((comb 3).setPending [.encoder (lineEnc data3)]) = .next t) ∧
    (comb 3).cfg.encPIPE = 0 ∧ (comb 3).cfg.decPIPE = 0 ∧
    (comb 3).cfg = ((comb 3).setTbOut code3).cfg ∧ (comb 3).encPins = ((comb 3).setTbOut code3).encPins ∧
    (comb 3).decInValid = ((comb 3).setTbOut code3).decInValid ∧ (comb 3).codeIn = ((comb 3).setTbOut code3).codeIn :=
  ⟨⟨_, rfl⟩, rfl, rfl, rfl, rfl, rfl, rfl⟩

theorem witness_EveryStepKeepsTheInvariant :
    ((reg 3).setPending [.decoder (lineDec code3)]).Inv ∧
    ∃ t, step ((reg 3).setPending [.decoder (lineDec code3)]) = .next t := ⟨by decide, _, rfl⟩

theorem witness_InvariantHoldsAfterReset : cfg3.Legal := by decide

theorem witness_ResetClearsTheValidRegisters : cfg3.encPIPE = 1 ∧ cfg3.decPIPE = 1 := by decide

theorem witness_LegalInputsAlwaysRun : (reg 3).cfg.Legal ∧
    ∀ st ∈ ((reg 3).setPending [.both (lineEnc data3) (.linked .zero (some 7)), lineFlip code3 1]).pending,
      st.legal (reg 3).cfg = true := by decide

theorem witness_OnlyTheTestbenchFaults :
    ∃ f, step ((reg 3).setPending [.both (lineEnc data3) (.linked .zero (some 8))]) = .fault f := ⟨_, rfl⟩

/-- A vector with an X and a Z, on the encoder's port and on the decoder's. -/
def xData : LogicVec := [.x, .z, .one, .zero]
def xCode : LogicVec := [.x, .z, .one, .zero, .one, .one, .one]

/-- For each clause a pending stimulus: X on the vector (at PIPE = 1, and at PIPE = 0 with an X on the absent rst), X on
rst, Z on in_valid, and an idle cycle with the vector X; for the encoder and then for the decoder. -/
theorem witness_NonBinaryInputsAreRefused : (reg 3).cfg.Legal ∧ (comb 3).cfg.Legal ∧
    (reg 3).cfg.encPIPE = 1 ∧ (reg 3).cfg.decPIPE = 1 ∧ (comb 3).cfg.encPIPE = 0 ∧ (comb 3).cfg.decPIPE = 0 ∧
    xData.length = (reg 3).cfg.K ∧ xData.all Logic.twoValued = false ∧
    xCode.length = (reg 3).cfg.N ∧ xCode.all Logic.twoValued = false ∧
    Logic.zero.twoValued = true ∧ Logic.one.twoValued = true ∧ Logic.x.twoValued = false ∧ Logic.z.twoValued = false ∧
    (∀ e ∈ ([⟨.zero, .one, xData⟩, ⟨.one, .one, xData⟩, ⟨.x, .one, xData⟩, ⟨.zero, .z, xData⟩, ⟨.zero, .zero, xData⟩] :
      List EncDrive), ((reg 3).setPending [.encoder e]).pending = .encoder e :: []) ∧
    ((comb 3).setPending [.encoder ⟨.x, .one, xData⟩]).pending = .encoder ⟨.x, .one, xData⟩ :: [] ∧
    (∀ p ∈ [(Logic.zero, Logic.one), (.one, .one), (.x, .one), (.zero, .z), (.zero, .zero)],
      ((reg 3).setPending [.decoder (.ports p.1 p.2 xCode)]).pending = .decoder (.ports p.1 p.2 xCode) :: []) ∧
    ((comb 3).setPending [.decoder (.ports .x .one xCode)]).pending = .decoder (.ports .x .one xCode) :: [] := by decide

theorem witness_ElaborationChecksInOrder : ({ cfg3 with R := 1 } : Config).R < 2 ∧
    (∀ c ∈ [{ cfg3 with R := 2, encPIPE := 2 }, { cfg3 with R := 2, decPIPE := 2 }],
      2 ≤ c.R ∧ ¬(c.encPIPE ≤ 1 ∧ c.decPIPE ≤ 1)) ∧
    cfg3.Legal ∧ ¬(5 = cfg3.K ∧ 7 = cfg3.N ∧ 7 = cfg3.N ∧ 4 = cfg3.K) ∧
    (widths3.dataIn = cfg3.K ∧ widths3.codeOut = cfg3.N ∧ widths3.codeIn = cfg3.N ∧ widths3.dataOut = cfg3.K) := by
  decide

/-- R below 2; at R = 2 a PIPE of 2 on one unit with the other's legal; and a wrong width, of FLIP at positions 0 and N + 1
too. -/
theorem witness_UnelaboratedOperationsAreRefused : (reg 1).cfg.R < 2 ∧
    (2 ≤ (State.resetOf { R := 2, encPIPE := 2 }).cfg.R ∧
      ¬((State.resetOf { R := 2, encPIPE := 2 }).cfg.encPIPE = 0 ∨ (State.resetOf { R := 2, encPIPE := 2 }).cfg.encPIPE = 1) ∧
      Instr.encode [true] = .encode [true]) ∧
    (2 ≤ (State.resetOf { R := 2, decPIPE := 2 }).cfg.R ∧
      ¬((State.resetOf { R := 2, decPIPE := 2 }).cfg.decPIPE = 0 ∨ (State.resetOf { R := 2, decPIPE := 2 }).cfg.decPIPE = 1) ∧
      Instr.decode [true, true, true] = .decode [true, true, true]) ∧
    (reg 3).cfg.Legal ∧ (reg 3).cfg.N + 1 = 8 ∧
    ∀ i ∈ [Instr.encode code3, .flip data3 0, .flip data3 8], i.operand.length ≠ i.operandWidth (reg 3).cfg.R := by decide

/-- Clause 1: two states whose data registers hold different unspecified values. Clause 2: two states that differ in
the valid registers too, with a reset edge to come for both units; the decoder's ports driven, and linked. -/
theorem witness_UnspecifiedValuesAreNeverObserved : (reg 3).cfg.Legal ∧
    ({ reg 3 with encCode := code3 } : State).sameUpToUnspecified { reg 3 with encCode := List.replicate 7 false } ∧
    ∀ d ∈ [lineDecRst .one (ofBits code3), .linked .one none],
      (reg 3).cfg = ({ reg 3 with encV := true, decV := true, encCode := code3 } : State).cfg ∧
      EncDrive.legal (reg 3).cfg (lineEncRst .zero xData) = true ∧ DecDrive.legal (reg 3).cfg d = true ∧
      (lineEncRst .zero xData).rst = .one ∧ d.rst = .one ∧
      ((reg 3).setPending [.both (lineEncRst .zero xData) d]).pending = .both (lineEncRst .zero xData) d :: [] ∧
      (({ reg 3 with encV := true, decV := true, encCode := code3 } : State).setPending
        [.both (lineEncRst .zero xData) d]).pending = .both (lineEncRst .zero xData) d :: [] :=
  ⟨by decide,
    ⟨rfl, rfl, ⟨rfl, rfl, fun h => absurd h (by decide), fun _ => ⟨rfl, fun h => absurd h (by decide)⟩⟩,
      ⟨rfl, rfl, fun h => absurd h (by decide)⟩, fun _ => ⟨rfl, fun h => absurd h (by decide)⟩⟩,
    by decide⟩

/-- A reset with a transaction offered, an idle cycle with X on the vector, and a transaction, beside each kind of decoder
half. -/
theorem witness_SharedEdgeUpdatesTheEncoder : (reg 3).cfg.Legal ∧ (reg 3).cfg.encPIPE = 1 ∧
    ∀ e ∈ [lineEncRst .one (ofBits data3), lineEncIdle xData, lineEnc data3],
      ∀ d ∈ [lineDecRst .zero xCode, lineDec code3, .linked .zero (some 7)],
        EncDrive.legal (reg 3).cfg e = true ∧ DecDrive.legal (reg 3).cfg d = true ∧
        ((reg 3).setPending [.both e d]).pending = .both e d :: [] := by decide

/-- A reset with a transaction offered, a reset of a linked decoder, an idle cycle and a transaction. -/
theorem witness_SharedEdgeUpdatesTheDecoder : (reg 3).cfg.Legal ∧ (reg 3).cfg.decPIPE = 1 ∧
    ∀ e ∈ [lineEncRst .zero xData, lineEnc data3],
      ∀ d ∈ [lineDecRst .one (ofBits code3), .linked .one (some 1), lineDecIdle xCode, lineDec code3],
        EncDrive.legal (reg 3).cfg e = true ∧ DecDrive.legal (reg 3).cfg d = true ∧
        ((reg 3).setPending [.both e d]).pending = .both e d :: [] := by decide

/-- A registered encoder with and without a result, and a combinational encoder beside a registered decoder, idle and
with a transaction; no FLIP and one at each end of the range. -/
def mixed (R : Nat) : State := State.resetOf { R := R, encPIPE := 0, decPIPE := 1 }

theorem witness_SharedEdgeSamplesTheLink : (reg 3).cfg.Legal ∧ (mixed 3).cfg.Legal ∧ (reg 3).cfg.decPIPE = 1 ∧
    (mixed 3).cfg.decPIPE = 1 ∧ (reg 3).cfg.encPIPE = 1 ∧ (mixed 3).cfg.encPIPE = 0 ∧
    (reg 3).encV = false ∧ ({ reg 3 with encV := true } : State).encV = true ∧
    (lineEncIdle xData).inValid = .zero ∧
    ∀ e ∈ [lineEncIdle xData, lineEnc data3], ∀ f ∈ [none, some 1, some 7],
      EncDrive.legal (reg 3).cfg e = true ∧ EncDrive.legal (mixed 3).cfg e = true ∧
      DecDrive.legal (reg 3).cfg (.linked .zero f) = true ∧ DecDrive.legal (mixed 3).cfg (.linked .zero f) = true ∧
      (({ reg 3 with encV := true } : State).setPending [.both e (.linked .zero f)]).pending =
        .both e (.linked .zero f) :: [] := by decide

theorem witness_LinkedDecoderFollowsTheEncoder : (reg 3).cfg.Legal ∧ (reg 3).cfg.decPIPE = 1 ∧
    (reg 3).encOutValid = false ∧ ({ reg 3 with encV := true } : State).encOutValid = true ∧
    ∀ r ∈ [Logic.zero, .one], ∀ f ∈ [none, some 1, some 7], DecDrive.legal (reg 3).cfg (.linked r f) = true ∧
      (({ reg 3 with encV := true } : State).setPending [.decoder (.linked r f)]).pending =
        .decoder (.linked r f) :: [] := by decide

theorem witness_IdleAtPipeZeroShowsNothing : (comb 3).cfg.Legal ∧ (comb 3).cfg.encPIPE = 0 ∧ (comb 3).cfg.decPIPE = 0 ∧
    xData.length = (comb 3).cfg.K ∧ xCode.length = (comb 3).cfg.N ∧ (comb 3).encOutValid = false ∧
    ((comb 3).setPending [.encoder ⟨.x, .zero, xData⟩]).pending = .encoder ⟨.x, .zero, xData⟩ :: [] ∧
    ((comb 3).setPending [.decoder (.ports .x .zero xCode)]).pending = .decoder (.ports .x .zero xCode) :: [] ∧
    EncDrive.legal (comb 3).cfg (lineEnc data3) = true ∧
    ((comb 3).setPending [.both (lineEnc data3) (.ports .x .zero xCode)]).pending =
      .both (lineEnc data3) (.ports .x .zero xCode) :: [] ∧
    ∀ f ∈ [none, some 1, some 7], DecDrive.legal (comb 3).cfg (.linked .x f) = true ∧
      ((comb 3).setPending [.decoder (.linked .x f)]).pending = .decoder (.linked .x f) :: [] ∧
      ((comb 3).setPending [.both ⟨.x, .zero, xData⟩ (.linked .x f)]).pending =
        .both ⟨.x, .zero, xData⟩ (.linked .x f) :: [] := by decide

/-- A registered encoder beside a combinational decoder. -/
def mixedComb (R : Nat) : State := State.resetOf { R := R, encPIPE := 1, decPIPE := 0 }

/-- Clause 4 beside a registered encoder: idle, and idle in a reset cycle. -/
theorem witness_IdleAtPipeZeroShowsNothing_registered : (mixedComb 3).cfg.Legal ∧ (mixedComb 3).cfg.decPIPE = 0 ∧
    ∀ r ∈ [Logic.zero, .one], ∀ f ∈ [none, some 1, some 7],
      EncDrive.legal (mixedComb 3).cfg ⟨r, .zero, xData⟩ = true ∧ DecDrive.legal (mixedComb 3).cfg (.linked .x f) = true ∧
      ((mixedComb 3).setPending [.both ⟨r, .zero, xData⟩ (.linked .x f)]).pending =
        .both ⟨r, .zero, xData⟩ (.linked .x f) :: [] := by decide

/-- A combinational decoder linked to an encoder of either PIPE, which shows a result or nothing, is idle, reset or takes a
transaction; no FLIP and one at each end of the range. -/
theorem witness_CombinationalLinkedDecoderShowsTheEncoder : (mixedComb 3).cfg.Legal ∧ (comb 3).cfg.Legal ∧
    (mixedComb 3).cfg.encPIPE = 1 ∧ (mixedComb 3).cfg.decPIPE = 0 ∧ (comb 3).cfg.decPIPE = 0 ∧
    ((mixedComb 3).driveDecoder (.linked false (some 7))).decPins = .linked false (some 7) ∧
    (mixedComb 3).encOutValid = false ∧ ({ mixedComb 3 with encV := true } : State).encOutValid = true ∧
    (∀ f ∈ [none, some 1, some 7], DecDrive.legal (mixedComb 3).cfg (.linked .zero f) = true ∧
      DecDrive.legal (comb 3).cfg (.linked .x f) = true ∧
      (({ mixedComb 3 with encV := true } : State).setPending [.decoder (.linked .zero f)]).pending =
        .decoder (.linked .zero f) :: []) ∧
    ∀ e ∈ [lineEnc data3, lineEncIdle xData, lineEncRst .one (ofBits data3)],
      EncDrive.legal (mixedComb 3).cfg e = true ∧ EncDrive.legal (comb 3).cfg e = true ∧
      ((mixedComb 3).setPending [.both e (.linked .zero (some 1))]).pending = .both e (.linked .zero (some 1)) :: [] := by
  decide

/-- Every port that can be named, at either PIPE, alone and on a shared stimulus beside a wrong and a right half; and a FLIP
call with an X in its operand, at a position in range and out of it. -/
theorem witness_NonBinaryInputsAreRefusedInEveryForm : (reg 3).cfg.Legal ∧ (comb 3).cfg.Legal ∧
    (∀ p ∈ [((⟨.x, .z, xData⟩ : EncDrive), Port.rst), (⟨.zero, .z, xData⟩, .inValid), (⟨.one, .one, xData⟩, .dataIn)],
      p.1.dataIn.length = (reg 3).cfg.K ∧ p.1.nonBinaryPort (reg 3).cfg = some p.2 ∧
      ((reg 3).setPending [.both p.1 (.linked .x (some 9))]).pending = .both p.1 (.linked .x (some 9)) :: []) ∧
    EncDrive.nonBinaryPort (comb 3).cfg ⟨.x, .z, xData⟩ = some .inValid ∧
    EncDrive.nonBinaryPort (comb 3).cfg ⟨.x, .one, xData⟩ = some .dataIn ∧
    (∀ p ∈ [(DecDrive.ports .x .z xCode, Port.rst), (.ports .zero .z xCode, .inValid), (.ports .one .one xCode, .codeIn),
        (.linked .x none, .rst), (.linked .z (some 9), .rst)],
      p.1.widthFits (reg 3).cfg = true ∧ p.1.nonBinaryPort (reg 3).cfg = some p.2 ∧
      ((reg 3).setPending [.decoder p.1]).pending = .decoder p.1 :: [] ∧
      ((reg 3).setPending [.both (lineEnc data3) p.1]).pending = .both (lineEnc data3) p.1 :: []) ∧
    DecDrive.nonBinaryPort (comb 3).cfg (.ports .x .z xCode) = some .inValid ∧
    EncDrive.legal (reg 3).cfg (lineEnc data3) = true ∧
    xCode.length = (reg 3).cfg.N ∧ xCode.all Logic.twoValued = false ∧
    ∀ pos ∈ [0, 1, 7, 8], ((reg 3).setPending [.testbench xCode pos]).pending = .testbench xCode pos :: [] := by decide

theorem witness_DecodeOfASingleError : data3.length = dataK 3 ∧ (1 ≤ 1 ∧ 1 ≤ codeN 3) ∧ (1 ≤ 7 ∧ 7 ≤ codeN 3) := by decide

/-- One legal stimulus of each kind at the head, in a state that has the invariant. -/
theorem witness_LegalInputStepsAndKeepsTheInvariant : (reg 3).cfg.Legal ∧
    ∀ st ∈ [.encoder (lineEncIdle xData), .decoder (lineDec code3), .both (lineEnc data3) (.linked .one (some 7)),
        lineFlip code3 1, lineFlip code3 7],
      ((reg 3).setPending [st]).pending = st :: [] ∧ st.legal (reg 3).cfg = true ∧ ((reg 3).setPending [st]).Inv := by
  decide

theorem witness_DefaultPipeIsCombinational : 2 ≤ 2 ∧ [true].length = dataK 2 ∧ [true, true, false].length = codeN 2 := by
  decide

end Sys2Proof.Tests
end

section
/-! The parity positions of R8: membership, and its agreement with the model's power-of-two test. -/

namespace Sys2Proof.Machine

theorem mem_parityPositions {R p : Nat} : p ∈ parityPositions R ↔ ∃ i, i < R ∧ p = 2 ^ i := by
  simp [parityPositions, eq_comm]

theorem two_pow_le_codeN_iff {R i : Nat} : 2 ^ i ≤ codeN R ↔ i < R :=
  ⟨fun h => (Nat.pow_lt_pow_iff_right (by norm_num)).mp (h.trans_lt (codeN_lt R)), two_pow_le_codeN⟩

/-- The range 1..N cuts the powers of two off exactly at 2^R (R8). -/
theorem mem_parityPositions_iff_range {R p : Nat} :
    p ∈ parityPositions R ↔ (1 ≤ p ∧ p ≤ codeN R) ∧ ∃ i, p = 2 ^ i := by
  rw [mem_parityPositions]
  constructor
  · rintro ⟨i, hi, rfl⟩
    exact ⟨⟨Nat.one_le_two_pow, two_pow_le_codeN hi⟩, i, rfl⟩
  · rintro ⟨⟨-, hN⟩, i, rfl⟩
    exact ⟨i, two_pow_le_codeN_iff.mp hN, rfl⟩

theorem mem_parityPositions_iff_isPow2 {R p : Nat} (h1 : 1 ≤ p) (hN : p ≤ codeN R) :
    p ∈ parityPositions R ↔ isPow2 p = true := by
  rw [mem_parityPositions_iff_range, isPow2_iff, and_iff_right ⟨h1, hN⟩]

/-- Settles O1: 2^i lies in 1..N exactly when i < R, so the listed powers are all the powers of two of the range. -/
theorem parityPositionsArePowersOfTwo : Obligations.ParityPositionsArePowersOfTwo :=
  fun _ _ => ⟨mem_parityPositions, mem_parityPositions_iff_range, mem_parityPositions_iff_isPow2⟩

end Sys2Proof.Machine
end

section
/-! Where the data bits stand (R14): counting the non-parity positions gives the formula for the data index. -/

namespace Sys2Proof.Machine

theorem ne_zero_of_not_isPow2_succ {n : Nat} (h : isPow2 (n + 1) = false) : n ≠ 0 := by
  rintro rfl
  exact absurd h (by decide)

theorem log2_succ_of_not_isPow2 {n : Nat} (h : isPow2 (n + 1) = false) : (n + 1).log2 = n.log2 := by
  have hn : n ≠ 0 := ne_zero_of_not_isPow2_succ h
  have hne : n + 1 ≠ 2 ^ (n + 1).log2 := by simpa [isPow2] using h
  have hle : 2 ^ (n + 1).log2 ≤ n + 1 := Nat.log2_self_le n.succ_ne_zero
  have hlt : n + 1 < 2 ^ ((n + 1).log2 + 1) := Nat.lt_log2_self
  exact ((Nat.log2_eq_iff hn).mpr ⟨by omega, by omega⟩).symm

theorem log2_succ_of_isPow2 {n : Nat} (hn : n ≠ 0) (h : isPow2 (n + 1) = true) :
    (n + 1).log2 = n.log2 + 1 := by
  obtain ⟨i, hi⟩ := isPow2_iff.mp h
  cases i with
  | zero => omega
  | succ i =>
    have hlog : n.log2 = i := (Nat.log2_eq_iff hn).mpr ⟨by rw [Nat.pow_succ] at hi; omega, by omega⟩
    rw [hi, Nat.log2_two_pow, hlog]

/-- Among 1, …, n there are ⌊log2 n⌋ + 1 powers of two (none for n = 0), and the data indices of the other positions
count up from 0. -/
theorem map_dataIdx_range' (n : Nat) :
    ((List.range' 1 n).filter fun p => !isPow2 p).map dataIdx = List.range (n - 1 - n.log2) := by
  induction n with
  | zero => rfl
  | succ n ih =>
    rw [List.range'_1_concat, List.filter_append, List.map_append, ih, Nat.add_comm 1 n]
    cases h : isPow2 (n + 1) with
    | true =>
      have hcount : n - 1 - n.log2 = n + 1 - 1 - (n + 1).log2 := by
        rcases Nat.eq_zero_or_pos n with rfl | hn
        · rfl
        · rw [log2_succ_of_isPow2 hn.ne' h]; omega
      simp [h, hcount]
    | false =>
      have hidx : dataIdx (n + 1) = n - 1 - n.log2 := by
        rw [dataIdx, log2_succ_of_not_isPow2 h]; rfl
      have hlog : n.log2 < n := (Nat.log2_lt (ne_zero_of_not_isPow2_succ h)).mpr Nat.lt_two_pow_self
      have hcount : n + 1 - 1 - (n + 1).log2 = n - 1 - n.log2 + 1 := by
        rw [log2_succ_of_not_isPow2 h]; omega
      rw [hcount, List.range_succ]
      simp [h, hidx]

theorem codeN_count (R : Nat) : codeN R - 1 - (codeN R).log2 = dataK R := by
  cases R with
  | zero => rfl
  | succ R =>
    have hpos : 0 < 2 ^ R := Nat.two_pow_pos R
    have hN : codeN (R + 1) + 1 = 2 ^ (R + 1) := by unfold codeN; omega
    have hlog : (codeN (R + 1)).log2 = R :=
      (Nat.log2_eq_iff (by omega)).mpr ⟨by omega, by omega⟩
    rw [hlog, dataK]; omega

/-- The data indices of the non-parity positions, in order, are 0, …, K − 1. -/
theorem map_dataIdx_dataPositions (R : Nat) : (dataPositions R).map dataIdx = List.range (dataK R) := by
  rw [← codeN_count]; exact map_dataIdx_range' (codeN R)

@[simp] theorem dataPositions_length (R : Nat) : (dataPositions R).length = dataK R := by
  simpa using congrArg List.length (map_dataIdx_dataPositions R)

theorem dataPos_eq_getElem {R j : Nat} (h : j < (dataPositions R).length) :
    dataPos R j = (dataPositions R)[j] :=
  List.getD_eq_getElem _ _ h

theorem dataPos_mem_dataPositions {R j : Nat} (h : j < dataK R) : dataPos R j ∈ dataPositions R := by
  rw [dataPos_eq_getElem (by simpa using h)]; exact List.getElem_mem _

theorem dataIdx_dataPos {R j : Nat} (h : j < dataK R) : dataIdx (dataPos R j) = j := by
  have hj : j < (dataPositions R).length := by simpa using h
  calc dataIdx (dataPos R j)
      = ((dataPositions R).map dataIdx)[j]'(by simpa using h) := by
        rw [dataPos_eq_getElem hj, List.getElem_map]
    _ = j := by simp only [map_dataIdx_dataPositions, List.getElem_range]

end Sys2Proof.Machine
end

section
/-! Coverage sets of parity positions: each holds exactly one parity position, its own (R47, R48). -/

namespace Sys2Proof.Machine

theorem two_pow_mem_cover {R i : Nat} (h : i < R) : 2 ^ i ∈ cover R (2 ^ i) :=
  mem_cover_two_pow.mpr ⟨⟨Nat.one_le_two_pow, two_pow_le_codeN h⟩, by simp⟩

theorem two_pow_and_two_pow {a b : Nat} (h : a ≠ b) : 2 ^ b &&& 2 ^ a = 0 := by
  by_contra hne
  exact h (by simpa [Nat.testBit_two_pow, eq_comm] using and_two_pow_ne_zero.mp hne)

theorem two_pow_notMem_cover {R a b : Nat} (h : a ≠ b) : 2 ^ b ∉ cover R (2 ^ a) :=
  fun hmem => (mem_cover.mp hmem).2 (two_pow_and_two_pow h)

theorem filter_isPow2_cover {R i : Nat} (h : i < R) : (cover R (2 ^ i)).filter isPow2 = [2 ^ i] := by
  have hpred : ∀ p ∈ cover R (2 ^ i), isPow2 p = (p == 2 ^ i) := by
    intro p hp
    rw [Bool.eq_iff_iff, isPow2_iff, beq_iff_eq]
    refine ⟨?_, fun hpi => ⟨i, hpi⟩⟩
    rintro ⟨j, rfl⟩
    by_contra hne
    exact two_pow_notMem_cover (fun hij => hne (congrArg (2 ^ ·) hij.symm)) hp
  have hnodup : (cover R (2 ^ i)).Nodup := (positions_nodup R).filter _
  rw [List.filter_congr hpred, List.filter_beq, List.count_eq_one_of_mem hnodup (two_pow_mem_cover h)]
  rfl

/-- The XOR over cover(2^i) is the bit at 2^i XORed with the parity bit over the data positions of the set. -/
theorem xorOver_cover {R i : Nat} (t : Bits) (h : i < R) :
    xorOver (cover R (2 ^ i)) (bitAt t) = (bitAt t (2 ^ i) ^^ parityBit R t (2 ^ i)) := by
  rw [xorOver_split _ isPow2, filter_isPow2_cover h, xorOver_cons, xorOver_nil, Bool.xor_false, parityBit]

/-- A parity bit depends on the data positions alone. -/
theorem parityBit_congr {R : Nat} {t u : Bits} (q : Nat)
    (h : ∀ p, 1 ≤ p → p ≤ codeN R → isPow2 p = false → bitAt t p = bitAt u p) :
    parityBit R t q = parityBit R u q := by
  refine xorOver_congr fun p hp => ?_
  simp only [List.mem_filter, mem_cover, Bool.not_eq_true'] at hp
  obtain ⟨⟨⟨h1, h2⟩, -⟩, hpow⟩ := hp
  exact h p h1 h2 hpow

end Sys2Proof.Machine
end

section
/-! The parity bits of ENC (R47, R48, R50). -/

namespace Sys2Proof.Machine

theorem bitAt_placement_two_pow {R i : Nat} (d : Bits) (h : i < R) : bitAt (placement R d) (2 ^ i) = false := by
  rw [bitAt_placement d Nat.one_le_two_pow (two_pow_le_codeN h), if_pos (isPow2_two_pow i)]

theorem bitAt_enc_two_pow {R i : Nat} (d : Bits) (h : i < R) :
    bitAt (enc R d) (2 ^ i) = parityBit R (placement R d) (2 ^ i) := by
  rw [bitAt_enc d Nat.one_le_two_pow (two_pow_le_codeN h), if_pos (isPow2_two_pow i)]

theorem bitAt_enc_of_not_isPow2 {R p : Nat} (d : Bits) (h1 : 1 ≤ p) (h2 : p ≤ codeN R)
    (h : isPow2 p = false) : bitAt (enc R d) p = d.getD (dataIdx p) false := by
  simp [bitAt_enc d h1 h2, h]

theorem bitAt_placement_of_not_isPow2 {R p : Nat} (d : Bits) (h1 : 1 ≤ p) (h2 : p ≤ codeN R)
    (h : isPow2 p = false) : bitAt (placement R d) p = d.getD (dataIdx p) false := by
  simp [bitAt_placement d h1 h2, h]

theorem parityBit_enc (R q : Nat) (d : Bits) : parityBit R (enc R d) q = parityBit R (placement R d) q :=
  parityBit_congr q fun _ h1 h2 h => by
    rw [bitAt_enc_of_not_isPow2 d h1 h2 h, bitAt_placement_of_not_isPow2 d h1 h2 h]

theorem parityBit_placement (R q : Nat) (d : Bits) :
    parityBit R (placement R d) q =
      xorOver ((cover R q).filter fun p => !isPow2 p) fun p => d.getD (dataIdx p) false := by
  refine xorOver_congr fun p hp => ?_
  simp only [List.mem_filter, mem_cover, Bool.not_eq_true'] at hp
  obtain ⟨⟨⟨h1, h2⟩, -⟩, hpow⟩ := hp
  exact bitAt_placement_of_not_isPow2 d h1 h2 hpow

/-- Every parity check passes on a codeword: the slot's bit cancels the data bits it was computed from. -/
theorem xorOver_cover_enc {R i : Nat} (d : Bits) (h : i < R) :
    xorOver (cover R (2 ^ i)) (bitAt (enc R d)) = false := by
  rw [xorOver_cover _ h, bitAt_enc_two_pow d h, parityBit_enc, Bool.xor_self]

/-- Settles O9: cover(2^i) has one parity position, 2^i itself, which is 0 in the placement vector and cancels the rest
of the set in ENC. -/
theorem parityIsEven : Obligations.ParityIsEven := by
  intro R i d hi
  refine ⟨?_, xorOver_cover_enc d hi⟩
  rw [xorOver_cover _ hi, bitAt_placement_two_pow d hi, Bool.false_xor, bitAt_enc_two_pow d hi]

end Sys2Proof.Machine
end

section
/-! Filling the parity slots one after the other (R48). -/

namespace Sys2Proof.Machine

/-- The placement vector with the parity slots of S filled and the others still 0: what stands in the vector while the
slots are filled in turn. -/
def filledAt (R : Nat) (d : Bits) (S : List Nat) : Bits :=
  (positions R).map fun p => if p ∈ S then parityBit R (placement R d) p else bitAt (placement R d) p

theorem bitAt_filledAt {R p : Nat} (d : Bits) (S : List Nat) (h1 : 1 ≤ p) (h2 : p ≤ codeN R) :
    bitAt (filledAt R d S) p =
      if p ∈ S then parityBit R (placement R d) p else bitAt (placement R d) p :=
  bitAt_map _ h1 h2

@[simp] theorem filledAt_length (R : Nat) (d : Bits) (S : List Nat) : (filledAt R d S).length = codeN R := by
  simp [filledAt]

theorem filledAt_nil (R : Nat) (d : Bits) : filledAt R d [] = placement R d := by
  refine bits_ext (filledAt_length R d []) (placement_length R d) fun p h1 h2 => ?_
  simp [bitAt_filledAt d [] h1 h2]

/-- With exactly the parity positions filled, the vector is ENC. -/
theorem filledAt_eq_enc {R : Nat} (d : Bits) {S : List Nat} (hS : ∀ p, p ∈ S ↔ p ∈ parityPositions R) :
    filledAt R d S = enc R d := by
  refine List.map_congr_left fun p hp => ?_
  obtain ⟨h1, h2⟩ := mem_positions.mp hp
  simp only [hS, mem_parityPositions_iff_isPow2 h1 h2]

/-- The slots filled so far do not matter for the next one: cover(q) meets them at q alone, which is still 0. -/
theorem xorOver_cover_filledAt {R q : Nat} (d : Bits) {S : List Nat} (hS : S ⊆ parityPositions R)
    (hq : q ∈ parityPositions R) (hqS : q ∉ S) :
    xorOver (cover R q) (bitAt (filledAt R d S)) = parityBit R (placement R d) q := by
  obtain ⟨i, hi, rfl⟩ := mem_parityPositions.mp hq
  have hslot : bitAt (filledAt R d S) (2 ^ i) = false := by
    rw [bitAt_filledAt d S Nat.one_le_two_pow (two_pow_le_codeN hi), if_neg hqS, bitAt_placement_two_pow d hi]
  have hdata : parityBit R (filledAt R d S) (2 ^ i) = parityBit R (placement R d) (2 ^ i) :=
    parityBit_congr _ fun p h1 h2 hp => by
      have hpS : p ∉ S := fun hmem => by
        simp [(mem_parityPositions_iff_isPow2 h1 h2).mp (hS hmem)] at hp
      rw [bitAt_filledAt d S h1 h2, if_neg hpS]
  rw [xorOver_cover _ hi, hslot, hdata, Bool.false_xor]

theorem fillParity_filledAt {R q : Nat} (d : Bits) {S : List Nat} (hS : S ⊆ parityPositions R)
    (hq : q ∈ parityPositions R) (hqS : q ∉ S) :
    fillParity R (filledAt R d S) q = filledAt R d (S ++ [q]) := by
  refine List.map_congr_left fun p hp => ?_
  obtain ⟨h1, h2⟩ := mem_positions.mp hp
  by_cases hpq : p = q
  · subst hpq
    simp [xorOver_cover_filledAt d hS hq hqS]
  · simp [bitAt_filledAt d S h1 h2, hpq]

/-- Filling distinct parity slots in turn fills each with its parity bit. -/
theorem foldl_fillParity (R : Nat) (d : Bits) (S : List Nat) (hS : S ⊆ parityPositions R) (hnodup : S.Nodup) :
    S.foldl (fillParity R) (placement R d) = filledAt R d S := by
  induction S using List.reverseRecOn with
  | nil => exact (filledAt_nil R d).symm
  | append_singleton S q ih =>
    obtain ⟨hS, hq⟩ : S ⊆ parityPositions R ∧ q ∈ parityPositions R := by simpa using hS
    obtain ⟨hqS, hnodup⟩ : q ∉ S ∧ S.Nodup := by simpa using List.nodup_append_comm.mp hnodup
    rw [List.foldl_concat, ih hS hnodup, fillParity_filledAt d hS hq hqS]

theorem parityPositions_nodup (R : Nat) : (parityPositions R).Nodup :=
  List.nodup_range.map (Nat.pow_right_injective le_rfl)

/-- Settles O10: a coverage set holds no parity position but its own, so each parity bit is an XOR of data bits, and
each slot gets the same bit whatever the order of filling. -/
theorem parityBitsAreIndependent : Obligations.ParityBitsAreIndependent := by
  refine ⟨fun a b => two_pow_and_two_pow, fun R a b => two_pow_notMem_cover, ?_, ?_, ?_⟩
  · intro R i t u hi hdata hslot
    rw [xorOver_cover t hi, xorOver_cover u hi, hslot, parityBit_congr _ hdata]
  · exact fun R i d hi => ⟨bitAt_enc_two_pow d hi, parityBit_placement R _ d⟩
  · intro R d order hperm
    rw [foldl_fillParity R d order hperm.subset (hperm.nodup_iff.mpr (parityPositions_nodup R))]
    exact filledAt_eq_enc d fun p => hperm.mem_iff

end Sys2Proof.Machine
end

section
/-! The decoder on a codeword (R50). -/

namespace Sys2Proof.Machine

theorem syndrome_eq_zero_iff {R : Nat} {c : Bits} :
    syndrome R c = 0 ↔ ∀ i, i < R → parityCheck R c i = false := by
  constructor
  · intro h i hi
    rw [← testBit_syndrome c hi, h, Nat.zero_testBit]
  · intro h
    refine Nat.eq_of_testBit_eq fun i => ?_
    by_cases hi : i < R
    · rw [testBit_syndrome c hi, h i hi, Nat.zero_testBit]
    · have hpow : 2 ^ R ≤ 2 ^ i := Nat.pow_le_pow_right (by norm_num) (by omega)
      rw [Nat.testBit_lt_two_pow ((syndrome_lt R c).trans_le hpow), Nat.zero_testBit]

theorem syndrome_enc (R : Nat) (d : Bits) : syndrome R (enc R d) = 0 :=
  syndrome_eq_zero_iff.mpr fun _ hi => xorOver_cover_enc d hi

/-- The corrector leaves a word with syndrome 0 as it is. -/
theorem correct_of_syndrome_eq_zero {R : Nat} {c : Bits} (hc : c.length = codeN R) (h : syndrome R c = 0) :
    correct R c = c := by
  rw [correct, locate, h, bitsXor_zeros hc]

theorem bitAt_enc_dataPos {R j : Nat} (d : Bits) (h : j < dataK R) :
    bitAt (enc R d) (dataPos R j) = d.getD j false := by
  obtain ⟨⟨h1, h2⟩, hpow⟩ := mem_dataPositions.mp (dataPos_mem_dataPositions h)
  rw [bitAt_enc_of_not_isPow2 d h1 h2 hpow, dataIdx_dataPos h]

/-- The extractor reads the data back from a codeword. -/
theorem extract_enc {R : Nat} {d : Bits} (h : d.length = dataK R) : extract R (enc R d) = d := by
  refine List.ext_getElem (by simp [h]) fun j hj hj' => ?_
  have hK : j < dataK R := by simpa using hj
  have hbit := (getD_extract (enc R d) hK).trans (bitAt_enc_dataPos d hK)
  simpa only [List.getD_eq_getElem _ _ hj, List.getD_eq_getElem _ _ hj'] using hbit

/-- Settles O13: every parity check of a codeword is 0, so nothing is corrected and the data bits stand where the
extractor reads them. -/
theorem encodedWordHasSyndromeZero : Obligations.EncodedWordHasSyndromeZero := by
  intro R d hd
  refine ⟨syndrome_enc R d, ?_, ?_⟩
  · rw [dec, correct_of_syndrome_eq_zero (enc_length R d) (syndrome_enc R d), extract_enc hd]
  · simp [dec, correctedFlag, syndrome_enc]

end Sys2Proof.Machine
end

section
/-! The syndrome as the number of the parity checks (R52, R54). -/

namespace Sys2Proof.Machine

/-- A number of R bits whose bits are the parity checks is the syndrome. -/
theorem syndrome_eq_of_testBit {R n : Nat} {c : Bits} (hn : n < 2 ^ R)
    (h : ∀ i, i < R → n.testBit i = parityCheck R c i) : syndrome R c = n := by
  refine Nat.eq_of_testBit_eq fun i => ?_
  by_cases hi : i < R
  · rw [testBit_syndrome c hi, h i hi]
  · have hpow : 2 ^ R ≤ 2 ^ i := Nat.pow_le_pow_right (by norm_num) (by omega)
    rw [Nat.testBit_lt_two_pow ((syndrome_lt R c).trans_le hpow), Nat.testBit_lt_two_pow (hn.trans_le hpow)]

theorem syndrome_le_codeN (R : Nat) (c : Bits) : syndrome R c ≤ codeN R :=
  Nat.le_sub_one_of_lt (syndrome_lt R c)

theorem getD_syndromeBits {R i : Nat} (c : Bits) (h : i < R) :
    (syndromeBits R c).getD i false = parityCheck R c i := by
  simp [syndromeBits, List.getD_eq_getElem?_getD, h]

theorem bitsToNat_syndromeBits (R : Nat) (c : Bits) : bitsToNat (syndromeBits R c) = syndrome R c := by
  refine (syndrome_eq_of_testBit ?_ fun i hi => ?_).symm
  · simpa using bitsToNat_lt (syndromeBits R c)
  · rw [testBit_bitsToNat, getD_syndromeBits c hi]

theorem syndromeBits_eq_bitsOfNat (R : Nat) (c : Bits) : syndromeBits R c = bitsOfNat R (syndrome R c) :=
  List.map_congr_left fun _ hi => (testBit_syndrome c (List.mem_range.mp hi)).symm

/-- Settles O16: the syndrome is a sum of distinct powers of two below 2^R, so its bits are the checks. -/
theorem syndromeIsANumberUpToN : Obligations.SyndromeIsANumberUpToN := fun R c =>
  ⟨syndrome_le_codeN R c, syndrome_le_codeN R c, bitsToNat_syndromeBits R c,
    fun _ hi => ⟨getD_syndromeBits c hi, testBit_syndrome c hi⟩⟩

end Sys2Proof.Machine
end

section
/-! The locator and the corrector on any received word (R53, R55). -/

namespace Sys2Proof.Machine

/-- Settles O17: the mask is one-hot at the syndrome, and the corrector XORs it onto the received word. -/
theorem correctorInvertsTheNamedBit : Obligations.CorrectorInvertsTheNamedBit := by
  refine ⟨fun R s p h1 h2 => ?_, fun R c hc => ⟨correct_length hc, correct_of_syndrome_eq_zero hc, ?_⟩⟩
  · rw [locate, bitAt_onehot h1 h2, beq_iff_eq]
  · intro _ p h1 h2
    rw [bitAt_correct hc h1 h2]
    by_cases hp : p = syndrome R c
    · simp [← hp]
    · rw [if_neg hp, beq_eq_false_iff_ne.mpr hp, Bool.xor_false]

end Sys2Proof.Machine
end

section
/-! The syndrome is linear (R59): of an XOR of words, of a one-hot word, and of a word with some bits flipped. -/

namespace Sys2Proof.Machine

theorem parityCheck_bitsXor {R : Nat} {c x : Bits} (h : c.length = x.length) (i : Nat) :
    parityCheck R (bitsXor c x) i = (parityCheck R c i ^^ parityCheck R x i) := by
  simp only [parityCheck, ← xorOver_xor]
  exact xorOver_congr fun _ _ => bitAt_bitsXor h

theorem syndrome_bitsXor {R : Nat} {c x : Bits} (h : c.length = x.length) :
    syndrome R (bitsXor c x) = syndrome R c ^^^ syndrome R x := by
  refine syndrome_eq_of_testBit (Nat.xor_lt_two_pow (syndrome_lt R c) (syndrome_lt R x)) fun i hi => ?_
  rw [Nat.testBit_xor, testBit_syndrome c hi, testBit_syndrome x hi, parityCheck_bitsXor h]

/-- The checks that a single bit takes part in are the 1 bits of its position's number. -/
theorem parityCheck_onehot {R p : Nat} (h : p ≤ codeN R) (i : Nat) :
    parityCheck R (onehot (codeN R) p) i = p.testBit i := by
  have hbit : ∀ j ∈ cover R (2 ^ i), bitAt (onehot (codeN R) p) j = (j == p) := fun j hj => by
    obtain ⟨⟨h1, h2⟩, -⟩ := mem_cover.mp hj
    exact bitAt_onehot h1 h2
  have hnodup : (cover R (2 ^ i)).Nodup := (positions_nodup R).filter _
  rw [parityCheck, xorOver_congr hbit, xorOver_eq hnodup, Bool.eq_iff_iff, decide_eq_true_iff,
    mem_cover_two_pow, and_iff_right_iff_imp]
  exact fun hi => ⟨Nat.pos_of_ne_zero fun h0 => by simp [h0] at hi, h⟩

theorem syndrome_onehot {R p : Nat} (h : p ≤ codeN R) : syndrome R (onehot (codeN R) p) = p :=
  syndrome_eq_of_testBit (h.trans_lt (codeN_lt R)) fun i _ => (parityCheck_onehot h i).symm

theorem syndrome_flipBit {R p : Nat} {c : Bits} (hc : c.length = codeN R) (h : p ≤ codeN R) :
    syndrome R (flipBit R c p) = syndrome R c ^^^ p := by
  rw [flipBit, syndrome_bitsXor (by simp [hc]), syndrome_onehot h]

@[simp] theorem flipAll_nil (R : Nat) (c : Bits) : flipAll R c [] = c := rfl

@[simp] theorem flipAll_cons (R : Nat) (c : Bits) (p : Nat) (E : List Nat) :
    flipAll R c (p :: E) = flipAll R (flipBit R c p) E := rfl

@[simp] theorem xorAll_nil : xorAll [] = 0 := rfl

@[simp] theorem xorAll_cons (p : Nat) (E : List Nat) : xorAll (p :: E) = p ^^^ xorAll E := rfl

theorem flipAll_length {R : Nat} {c : Bits} (E : List Nat) (hc : c.length = codeN R) :
    (flipAll R c E).length = codeN R := by
  induction E generalizing c with
  | nil => exact hc
  | cons p E ih => exact ih (flipBit_length hc)

theorem syndrome_flipAll {R : Nat} {c : Bits} {E : List Nat} (hc : c.length = codeN R)
    (hE : ∀ p ∈ E, p ≤ codeN R) : syndrome R (flipAll R c E) = syndrome R c ^^^ xorAll E := by
  induction E generalizing c with
  | nil => simp
  | cons p E ih =>
    obtain ⟨hp, hE⟩ := List.forall_mem_cons.mp hE
    rw [flipAll_cons, ih (flipBit_length hc) hE, syndrome_flipBit hc hp, xorAll_cons, Nat.xor_assoc]

/-- The syndrome of a codeword with the bits at E flipped is the XOR of the positions in E. -/
theorem syndrome_flipAll_enc {R : Nat} (d : Bits) {E : List Nat} (hE : PositionSet R E) :
    syndrome R (flipAll R (enc R d) E) = xorAll E := by
  rw [syndrome_flipAll (enc_length R d) fun p hp => (hE.2 p hp).2, syndrome_enc, Nat.zero_xor]

/-- Settles O18: each check is an XOR of bits, hence linear, and the single bit at p sets the checks of p's 1 bits. -/
theorem syndromeIsLinear : Obligations.SyndromeIsLinear :=
  ⟨fun _ _ _ hc hx => syndrome_bitsXor (hc.trans hx.symm), fun _ _ _ h2 => syndrome_onehot h2,
    fun _ d _ _ hE => syndrome_flipAll_enc d hE⟩

end Sys2Proof.Machine
end

section
/-! Decoding a single error (R60). -/

namespace Sys2Proof.Machine

/-- The corrector is FLIP at the syndrome (R64). -/
theorem correct_eq_flipBit (R : Nat) (c : Bits) : correct R c = flipBit R c (syndrome R c) := rfl

theorem flipBit_flipBit {R : Nat} {c : Bits} (p : Nat) (hc : c.length = codeN R) :
    flipBit R (flipBit R c p) p = c := by
  refine bits_ext (flipBit_length (flipBit_length hc)) hc fun q h1 h2 => ?_
  rw [bitAt_flipBit (flipBit_length hc) h1 h2, bitAt_flipBit hc h1 h2, Bool.xor_assoc, Bool.xor_self,
    Bool.xor_false]

theorem syndrome_flipBit_enc {R p : Nat} (d : Bits) (h : p ≤ codeN R) :
    syndrome R (flipBit R (enc R d) p) = p := by
  rw [syndrome_flipBit (enc_length R d) h, syndrome_enc, Nat.zero_xor]

/-- The syndrome names the inverted bit, so the corrector inverts it back. -/
theorem correct_flipBit_enc {R p : Nat} (d : Bits) (h : p ≤ codeN R) :
    correct R (flipBit R (enc R d) p) = enc R d := by
  rw [correct_eq_flipBit, syndrome_flipBit_enc d h, flipBit_flipBit p (enc_length R d)]

/-- DEC in terms of the syndrome as a number. -/
theorem dec_eq (R : Nat) (c : Bits) :
    dec R c = { data := extract R (correct R c), corrected := syndrome R c != 0,
                syndrome := bitsOfNat R (syndrome R c) } := by
  rw [dec, syndromeBits_eq_bitsOfNat, correctedFlag]

/-- Settles O54: with at most one bit inverted the working copy is the codeword sent, and the syndrome is the position
or 0. -/
theorem decodeOfASingleError : Obligations.DecodeOfASingleError := by
  refine fun R d hd => ⟨fun p h1 h2 => ?_, ?_⟩
  · have hp : (p != 0) = true := bne_iff_ne.mpr (by omega)
    rw [← flipBit, dec_eq, syndrome_flipBit_enc d h2, correct_flipBit_enc d h2, extract_enc hd, hp]
  · rw [dec_eq, syndrome_enc, correct_of_syndrome_eq_zero (enc_length R d) (syndrome_enc R d), extract_enc hd]
    rfl

end Sys2Proof.Machine
end

section
/-! Words of syndrome 0 are codewords, so the working copy always is one (R61). -/

namespace Sys2Proof.Machine

theorem syndrome_correct {R : Nat} {c : Bits} (hc : c.length = codeN R) : syndrome R (correct R c) = 0 := by
  rw [correct_eq_flipBit, syndrome_flipBit hc (syndrome_le_codeN R c), Nat.xor_self]

theorem exists_dataPos_eq {R p : Nat} (hp : p ∈ dataPositions R) : ∃ j < dataK R, dataPos R j = p := by
  obtain ⟨j, hj, rfl⟩ := List.mem_iff_getElem.mp hp
  exact ⟨j, by simpa using hj, dataPos_eq_getElem hj⟩

/-- Two words give the same data exactly when they agree at every non-parity position (R57). -/
theorem extract_eq_iff {R : Nat} {v w : Bits} :
    extract R v = extract R w ↔ ∀ p ∈ dataPositions R, bitAt v p = bitAt w p := by
  simp only [extract, List.map_inj_left, List.mem_range]
  constructor
  · intro h p hp
    obtain ⟨j, hj, rfl⟩ := exists_dataPos_eq hp
    exact h j hj
  · exact fun h j hj => h _ (dataPos_mem_dataPositions hj)

theorem extract_ne_iff {R : Nat} {v w : Bits} :
    extract R v ≠ extract R w ↔ ∃ p ∈ dataPositions R, bitAt v p ≠ bitAt w p := by
  simp only [ne_eq, extract_eq_iff, not_forall, exists_prop]

theorem bitAt_enc_extract {R p : Nat} (v : Bits) (hp : p ∈ dataPositions R) :
    bitAt (enc R (extract R v)) p = bitAt v p := by
  obtain ⟨j, hj, rfl⟩ := exists_dataPos_eq hp
  rw [bitAt_enc_dataPos _ hj, getD_extract v hj]

/-- With every check 0, each parity slot is the parity bit of the data positions, as in ENC. -/
theorem enc_extract_of_syndrome_eq_zero {R : Nat} {v : Bits} (hv : v.length = codeN R) (h : syndrome R v = 0) :
    enc R (extract R v) = v := by
  refine bits_ext (enc_length R _) hv fun p h1 h2 => ?_
  cases hpow : isPow2 p with
  | false => exact bitAt_enc_extract v (mem_dataPositions.mpr ⟨⟨h1, h2⟩, hpow⟩)
  | true =>
    obtain ⟨i, hi, rfl⟩ := mem_parityPositions.mp ((mem_parityPositions_iff_isPow2 h1 h2).mpr hpow)
    have hdata : parityBit R (enc R (extract R v)) (2 ^ i) = parityBit R v (2 ^ i) :=
      parityBit_congr _ fun q hq1 hq2 hq => bitAt_enc_extract v (mem_dataPositions.mpr ⟨⟨hq1, hq2⟩, hq⟩)
    have hcheck : (bitAt v (2 ^ i) ^^ parityBit R v (2 ^ i)) = false := by
      rw [← xorOver_cover v hi]; exact syndrome_eq_zero_iff.mp h i hi
    rw [bitAt_enc_two_pow _ hi, ← parityBit_enc, hdata, bne_eq_false_iff_eq.mp hcheck]

/-- The working copy is the codeword of the data that DEC puts out. -/
theorem enc_extract_correct {R : Nat} {c : Bits} (hc : c.length = codeN R) :
    enc R (extract R (correct R c)) = correct R c :=
  enc_extract_of_syndrome_eq_zero (correct_length hc) (syndrome_correct hc)

/-- Every received word is the codeword of the data that DEC puts out, with the bit at its syndrome inverted. -/
theorem eq_flipBit_enc {R : Nat} {c : Bits} (hc : c.length = codeN R) :
    c = flipBit R (enc R (extract R (correct R c))) (syndrome R c) := by
  rw [enc_extract_correct hc, correct_eq_flipBit, flipBit_flipBit _ hc]

end Sys2Proof.Machine
end

section
/-! Decoding several errors (R61). -/

namespace Sys2Proof.Machine

theorem bitAt_flipAll {R p : Nat} {c : Bits} {E : List Nat} (hc : c.length = codeN R) (h1 : 1 ≤ p)
    (h2 : p ≤ codeN R) (hE : E.Nodup) : bitAt (flipAll R c E) p = (bitAt c p ^^ decide (p ∈ E)) := by
  rw [← xorOver_eq hE]
  induction E generalizing c with
  | nil => simp
  | cons q E ih =>
    rw [flipAll_cons, ih (flipBit_length hc) hE.of_cons, bitAt_flipBit hc h1 h2, xorOver_cons, Bool.xor_assoc,
      Bool.beq_comm]

theorem xor_ne_left_iff (a b : Bool) : (a ^^ b) ≠ a ↔ b = true := by
  cases a <;> simp

/-- The working copy differs from the codeword sent exactly on the symmetric difference of E and {s}. -/
theorem bitAt_correct_flipAll_enc_ne_iff {R p : Nat} (d : Bits) {E : List Nat} (hE : PositionSet R E)
    (h1 : 1 ≤ p) (h2 : p ≤ codeN R) :
    bitAt (correct R (flipAll R (enc R d) E)) p ≠ bitAt (enc R d) p ↔ ¬(p ∈ E ↔ p = xorAll E) := by
  rw [bitAt_correct (flipAll_length E (enc_length R d)) h1 h2, bitAt_flipAll (enc_length R d) h1 h2 hE.1,
    syndrome_flipAll_enc d hE, Bool.xor_assoc, xor_ne_left_iff, bne_iff_ne, ne_eq, Bool.eq_iff_iff,
    decide_eq_true_iff, beq_iff_eq]

theorem extract_correct_flipAll_enc_ne_iff {R : Nat} {d : Bits} {E : List Nat} (hd : d.length = dataK R)
    (hE : PositionSet R E) :
    extract R (correct R (flipAll R (enc R d) E)) ≠ d ↔
      ∃ p, 1 ≤ p ∧ p ≤ codeN R ∧ isPow2 p = false ∧ ¬(p ∈ E ↔ p = xorAll E) := by
  have hdiff : extract R (correct R (flipAll R (enc R d) E)) ≠ d ↔
      ∃ p ∈ dataPositions R, bitAt (correct R (flipAll R (enc R d) E)) p ≠ bitAt (enc R d) p := by
    rw [← extract_ne_iff, extract_enc hd]
  rw [hdiff]
  refine exists_congr fun p => ?_
  rw [mem_dataPositions]
  constructor
  · rintro ⟨⟨⟨h1, h2⟩, hpow⟩, hne⟩
    exact ⟨h1, h2, hpow, (bitAt_correct_flipAll_enc_ne_iff d hE h1 h2).mp hne⟩
  · rintro ⟨h1, h2, hpow, hne⟩
    exact ⟨⟨⟨h1, h2⟩, hpow⟩, (bitAt_correct_flipAll_enc_ne_iff d hE h1 h2).mpr hne⟩

/-! ## Errors with the XOR 0 -/

theorem testBit_xorAll (E : List Nat) (i : Nat) : (xorAll E).testBit i = xorOver E fun p => p.testBit i := by
  induction E with
  | nil => simp
  | cons p E ih => simp [Nat.testBit_xor, ih]

/-- Distinct powers of two never cancel: bit i of their XOR comes from 2^i alone. -/
theorem testBit_xorAll_of_isPow2 {E : List Nat} (hE : E.Nodup) (hpow : ∀ p ∈ E, isPow2 p = true) (i : Nat) :
    (xorAll E).testBit i = decide (2 ^ i ∈ E) := by
  rw [testBit_xorAll, ← xorOver_eq hE]
  refine xorOver_congr fun p hp => ?_
  obtain ⟨j, rfl⟩ := isPow2_iff.mp (hpow p hp)
  rw [Nat.testBit_two_pow, Bool.eq_iff_iff, decide_eq_true_iff, beq_iff_eq, Nat.pow_right_inj (le_refl 2)]

theorem exists_not_isPow2_of_xorAll_eq_zero {E : List Nat} (hE : E.Nodup) (hne : E ≠ []) (h : xorAll E = 0) :
    ∃ p ∈ E, isPow2 p = false := by
  by_contra! hpow
  simp only [ne_eq, Bool.not_eq_false] at hpow
  obtain ⟨p, hp⟩ := List.exists_mem_of_ne_nil E hne
  obtain ⟨i, rfl⟩ := isPow2_iff.mp (hpow p hp)
  have hbit := testBit_xorAll_of_isPow2 hE hpow i
  simp [h, hp] at hbit

theorem xorAll_ne_zero_of_length_eq_two {E : List Nat} (hE : E.Nodup) (hlen : E.length = 2) : xorAll E ≠ 0 := by
  obtain ⟨a, b, rfl⟩ := List.length_eq_two.mp hlen
  simpa using hE

theorem three_le_length_of_xorAll_eq_zero {R : Nat} {E : List Nat} (hE : PositionSet R E) (hne : E ≠ [])
    (h : xorAll E = 0) : 3 ≤ E.length := by
  have hpos : E.length ≠ 0 := by simpa using hne
  have hone : E.length ≠ 1 := fun hlen => by
    obtain ⟨a, rfl⟩ := List.length_eq_one_iff.mp hlen
    have ha : 1 ≤ a := (hE.2 a (by simp)).1
    have ha0 : a = 0 := by simpa using h
    omega
  have htwo : E.length ≠ 2 := fun hlen => xorAll_ne_zero_of_length_eq_two hE.1 hlen h
  omega

theorem extract_correct_ne_of_xorAll_eq_zero {R : Nat} {d : Bits} {E : List Nat} (hd : d.length = dataK R)
    (hE : PositionSet R E) (hne : E ≠ []) (h : xorAll E = 0) :
    extract R (correct R (flipAll R (enc R d) E)) ≠ d := by
  obtain ⟨p, hp, hpow⟩ := exists_not_isPow2_of_xorAll_eq_zero hE.1 hne h
  obtain ⟨h1, h2⟩ := hE.2 p hp
  have hdiff : ¬(p ∈ E ↔ p = xorAll E) := fun hiff => by
    have hp0 : p = xorAll E := hiff.mp hp
    omega
  exact (extract_correct_flipAll_enc_ne_iff hd hE).mpr ⟨p, h1, h2, hpow, hdiff⟩

/-- Settles O20: the syndrome is the XOR s of E and the corrector inverts s, so the errors left are the symmetric
difference of E and {s}; distinct powers of two have a nonzero XOR, so a zero s needs a data position in E. -/
theorem multipleErrorsDecodeExactly : Obligations.MultipleErrorsDecodeExactly := by
  refine ⟨fun R d E hd hE => ?_, rfl⟩
  have hlen : (flipAll R (enc R d) E).length = codeN R := flipAll_length E (enc_length R d)
  have hsyn : syndrome R (flipAll R (enc R d) E) = xorAll E := syndrome_flipAll_enc d hE
  have hdec := dec_eq R (flipAll R (enc R d) E)
  rw [hsyn] at hdec
  rw [hdec]
  refine ⟨rfl, fun p => bitAt_correct_flipAll_enc_ne_iff d hE, extract_correct_flipAll_enc_ne_iff hd hE, ?_, ?_⟩
  · exact fun hne h0 =>
      ⟨three_le_length_of_xorAll_eq_zero hE hne h0, extract_correct_ne_of_xorAll_eq_zero hd hE hne h0⟩
  · intro htwo
    have hne : xorAll E ≠ 0 := xorAll_ne_zero_of_length_eq_two hE.1 htwo
    refine ⟨bne_iff_ne.mpr hne, extract R (correct R (flipAll R (enc R d) E)), xorAll E, extract_length R _,
      Nat.pos_of_ne_zero hne, ?_, ?_⟩
    · exact hsyn ▸ syndrome_le_codeN R _
    · exact hsyn ▸ eq_flipBit_enc hlen

end Sys2Proof.Machine
end

section
/-! FLIP on the machine: what one call answers, in range and outside, and its agreement with the corrector (R62 to
R64). -/

namespace Sys2Proof.Machine

/-- In range, FLIP completes and keeps its result (R62). -/
theorem exec_flip_of_inRange {s : State} {c : Bits} {pos : Nat} (hR : 2 ≤ s.cfg.R) (hc : c.length = s.cfg.N)
    (h1 : 1 ≤ pos) (h2 : pos ≤ s.cfg.N) :
    exec (.flip c pos) s = .next (s.setTbOut (flipBit s.cfg.R c pos)) :=
  execFlip_eq_next.mpr ⟨⟨⟨hR, hc⟩, h1, h2⟩, rfl⟩

/-- Outside [1, N], FLIP on an N-bit word faults (R62). -/
theorem exec_flip_of_outOfRange {s : State} {c : Bits} {pos : Nat} (hR : 2 ≤ s.cfg.R) (hc : c.length = s.cfg.N)
    (hpos : ¬(1 ≤ pos ∧ pos ≤ s.cfg.N)) :
    exec (.flip c pos) s = .fault (.positionOutOfRange 1 s.cfg.N pos) := by
  have hcheck : checkFlip s.cfg c.length = none := checkFlip_eq_none.mpr ⟨hR, hc⟩
  have hfault : checkPosition s.cfg.R pos = some (.positionOutOfRange 1 s.cfg.N pos) :=
    checkPosition_eq_some.mpr ⟨hpos, rfl⟩
  simp only [exec, execFlip, hcheck, hfault]

/-- `bitAt_flipBit` with the two cases written out. -/
theorem bitAt_flipBit_eq_ite {R p pos : Nat} {c : Bits} (hc : c.length = codeN R) (h1 : 1 ≤ p) (h2 : p ≤ codeN R) :
    bitAt (flipBit R c pos) p = if p = pos then !bitAt c p else bitAt c p := by
  rw [bitAt_flipBit hc h1 h2]
  split_ifs with hp
  · rw [beq_iff_eq.mpr hp, Bool.xor_true]
  · rw [beq_eq_false_iff_ne.mpr hp, Bool.xor_false]

/-- Settles O23: in range the result is the word with the one-hot vector of the position XORed onto it; outside, the
position check answers. -/
theorem flipCompletesInRangeOnly : Obligations.FlipCompletesInRangeOnly := by
  refine fun s c pos hR hc => ⟨fun h1 h2 => ?_, fun hout => ?_⟩
  · exact ⟨_, exec_flip_of_inRange hR hc h1 h2, rfl, flipBit_length hc, fun p => bitAt_flipBit_eq_ite hc⟩
  · exact exec_flip_of_outOfRange hR hc (by omega)

/-- Settles O24: the first call keeps the width and the configuration, so the second completes too, and inverting one
bit twice gives the word back. -/
theorem flipIsAnInvolution : Obligations.FlipIsAnInvolution := by
  intro s c pos hR hc h1 h2
  exact ⟨_, _, exec_flip_of_inRange hR hc h1 h2, exec_flip_of_inRange hR (flipBit_length hc) h1 h2,
    flipBit_flipBit pos hc⟩

/-- Settles O25: a nonzero syndrome is a position in [1, N], so FLIP completes there, and the corrector is FLIP at the
syndrome. -/
theorem flipAgreesWithCorrector : Obligations.FlipAgreesWithCorrector := by
  intro s c hR hc hs
  have hexec := exec_flip_of_inRange hR hc (Nat.one_le_iff_ne_zero.mpr hs) (syndrome_le_codeN s.cfg.R c)
  exact ⟨_, hexec, (correct_eq_flipBit s.cfg.R c).symm⟩

end Sys2Proof.Machine
end

section
/-! What a legal configuration satisfies (R9, R11). -/

namespace Sys2Proof

theorem Config.Legal.two_le_R {c : Config} (h : c.Legal) : 2 ≤ c.R := h.1

theorem Config.Legal.encPIPE_eq {c : Config} (h : c.Legal) : c.encPIPE = 0 ∨ c.encPIPE = 1 := h.2.1

theorem Config.Legal.decPIPE_eq {c : Config} (h : c.Legal) : c.decPIPE = 0 ∨ c.decPIPE = 1 := h.2.2

end Sys2Proof
end

section
/-! Port words and operations (R37 to R39): the two directions of decoding, and which vectors decode. -/

namespace Sys2Proof

theorem decodeWord_encodeWord {R : Nat} {i : Instr} (h : i.wellFormed R = true) :
    decodeWord R (encodeWord i) = .ok i := by
  have hlen : i.operand.length = i.operandWidth R := beq_iff_eq.mp h
  cases i with
  | encode d => exact decodeWord_encoderPort.mpr ⟨d, rfl, readVector_eq_ok.mpr ⟨hlen, rfl⟩⟩
  | decode c => exact decodeWord_decoderPort.mpr ⟨c, rfl, readVector_eq_ok.mpr ⟨hlen, rfl⟩⟩
  | flip c pos => exact decodeWord_testbenchCall.mpr ⟨c, rfl, readVector_eq_ok.mpr ⟨hlen, rfl⟩⟩

theorem wellFormed_and_encodeWord_of_decodeWord {R : Nat} {w : PortWord} {i : Instr}
    (h : decodeWord R w = .ok i) : i.wellFormed R = true ∧ encodeWord i = w := by
  cases w with
  | encoderPort v =>
    obtain ⟨d, rfl, hd⟩ := decodeWord_encoderPort.mp h
    obtain ⟨hlen, rfl⟩ := readVector_eq_ok.mp hd
    exact ⟨beq_iff_eq.mpr hlen, rfl⟩
  | decoderPort v =>
    obtain ⟨c, rfl, hc⟩ := decodeWord_decoderPort.mp h
    obtain ⟨hlen, rfl⟩ := readVector_eq_ok.mp hc
    exact ⟨beq_iff_eq.mpr hlen, rfl⟩
  | testbenchCall v pos =>
    obtain ⟨c, rfl, hc⟩ := decodeWord_testbenchCall.mp h
    obtain ⟨hlen, rfl⟩ := readVector_eq_ok.mp hc
    exact ⟨beq_iff_eq.mpr hlen, rfl⟩

/-- Settles O3: a vector reads as d exactly when it has the port's width and carries the bits of d, on each port. -/
theorem decodeAndEncodeAgree : Obligations.DecodeAndEncodeAgree :=
  ⟨fun _ _ => decodeWord_encodeWord, fun _ _ _ => wellFormed_and_encodeWord_of_decodeWord⟩

/-! ## Vectors of 0 and 1 -/

theorem Logic.exists_eq_ofBool {b : Logic} : (∃ x, b = Logic.ofBool x) ↔ b = .zero ∨ b = .one := by
  simp [Bool.exists_bool, Logic.ofBool]

theorem exists_eq_ofBits {v : LogicVec} : (∃ d, v = ofBits d) ↔ ∀ b ∈ v, b = .zero ∨ b = .one := by
  have hrange := Set.ext_iff.mp (Set.range_list_map Logic.ofBool) v
  simpa [ofBits, ← Logic.exists_eq_ofBool, eq_comm] using hrange

/-- A vector reads on a port exactly when it has the port's width and every wire is 0 or 1. -/
theorem exists_readVector_eq_ok {port : Port} {w : Nat} {v : LogicVec} :
    (∃ d, readVector port w v = .ok d) ↔ v.length = w ∧ ∀ b ∈ v, b = .zero ∨ b = .one := by
  rw [← exists_eq_ofBits]
  constructor
  · rintro ⟨d, hd⟩
    obtain ⟨hlen, rfl⟩ := readVector_eq_ok.mp hd
    exact ⟨by simpa using hlen, d, rfl⟩
  · rintro ⟨hlen, d, rfl⟩
    exact ⟨d, readVector_eq_ok.mpr ⟨by simpa using hlen, rfl⟩⟩

/-- Settles O5: each unit's port word decodes to that unit's operation exactly when the vector reads. -/
theorem everyTwoValuedVectorIsLegal : Obligations.EveryTwoValuedVectorIsLegal := by
  refine fun R v => ⟨?_, ?_⟩
  · simp [← exists_readVector_eq_ok (port := .dataIn), decodeWord_encoderPort]
  · simp [← exists_readVector_eq_ok (port := .codeIn), decodeWord_decoderPort]

/-- Settles O6: each word is read wire by wire. -/
theorem specWordsDecode : Obligations.SpecWordsDecode :=
  ⟨rfl, rfl, rfl, rfl, rfl, rfl, rfl⟩

/-! ## The one-number form (notes/assumptions/12.md) -/

theorem bitsOfNat_bitsToNat_of_length {w : Nat} {d : Bits} (h : d.length = w) : bitsOfNat w (bitsToNat d) = d := by
  subst h; exact bitsOfNat_bitsToNat d

theorem dataK_le_codeN (R : Nat) : dataK R ≤ codeN R := Nat.sub_le _ _

theorem bitsToNat_lt_of_length {w : Nat} {d : Bits} (h : d.length = w) : bitsToNat d < 2 ^ w :=
  h ▸ bitsToNat_lt d

/-- The number form reads back as the operation's own port word: the unit number stands above the N bits. -/
theorem tableWord_encodeTableWord {R nbits : Nat} {i : Instr} (h : i.wellFormed R = true)
    (hfit : encodeTableWord R i < 2 ^ nbits) : tableWord R nbits (encodeTableWord R i) = encodeWord i := by
  have hlen : i.operand.length = i.operandWidth R := beq_iff_eq.mp h
  have hpos : 0 < 2 ^ codeN R := Nat.two_pow_pos _
  rw [tableWord, Nat.mod_eq_of_lt hfit]
  cases i with
  | encode d =>
    have hK : bitsToNat d < 2 ^ dataK R := bitsToNat_lt_of_length hlen
    have hN : bitsToNat d < 2 ^ codeN R := hK.trans_le (Nat.pow_le_pow_right two_pos (dataK_le_codeN R))
    have hbits : bitsOfNat (dataK R) (bitsToNat d) = d := bitsOfNat_bitsToNat_of_length hlen
    simp [encodeTableWord, encodeWord, Nat.div_eq_of_lt hN, Nat.mod_eq_of_lt hN, hK, hbits]
  | decode c =>
    have hN : bitsToNat c < 2 ^ codeN R := bitsToNat_lt_of_length hlen
    have hbits : bitsOfNat (codeN R) (bitsToNat c) = c := bitsOfNat_bitsToNat_of_length hlen
    simp [encodeTableWord, encodeWord, Nat.div_eq_of_lt hN, Nat.mod_eq_of_lt hN, Nat.add_div_right _ hpos, hbits]
  | flip c pos =>
    have hN : bitsToNat c < 2 ^ codeN R := bitsToNat_lt_of_length hlen
    have hbits : bitsOfNat (codeN R) (bitsToNat c) = c := bitsOfNat_bitsToNat_of_length hlen
    simp [encodeTableWord, encodeWord, Nat.div_eq_of_lt hN, Nat.mod_eq_of_lt hN, Nat.add_mul_div_left _ _ hpos,
      hbits]

/-- Settles O4: the number reads back as the operation's port word, which decodes to the operation. -/
theorem tableWordRoundTrip : Obligations.TableWordRoundTrip := fun R _ _ h hfit =>
  (congrArg (decodeWord R) (tableWord_encodeTableWord h hfit)).trans (decodeWord_encodeWord h)

end Sys2Proof
end

section
/-! The data positions, the linearity of ENC and the corner cases of ENC and DEC (R14, R49, R58, R61). -/

namespace Sys2Proof.Machine

theorem dataPositions_pairwise_lt (R : Nat) : (dataPositions R).Pairwise (· < ·) :=
  (List.pairwise_lt_range' (s := 1) (n := codeN R)).filter _

/-- Settles O2: the data indices of the non-parity positions, in increasing order, are 0, …, K − 1. -/
theorem dataPositionsBijection : Obligations.DataPositionsBijection := by
  refine fun R => ⟨dataPositions_length R, dataPositions_pairwise_lt R, fun j hj => ?_, fun p h1 h2 hp => ?_⟩
  · obtain ⟨⟨h1, h2⟩, hpow⟩ := mem_dataPositions.mp (dataPos_mem_dataPositions hj)
    exact ⟨h1, h2, hpow, dataIdx_dataPos hj⟩
  · obtain ⟨j, hj, rfl⟩ := exists_dataPos_eq (mem_dataPositions.mpr ⟨⟨h1, h2⟩, hp⟩)
    rw [dataIdx_dataPos hj]
    exact ⟨hj, rfl⟩

/-- The one codeword that carries the data d is the word of syndrome 0 whose data bits are d. -/
theorem enc_eq_of_syndrome_eq_zero {R : Nat} {v d : Bits} (hv : v.length = codeN R) (hs : syndrome R v = 0)
    (hd : extract R v = d) : enc R d = v := by
  rw [← hd, enc_extract_of_syndrome_eq_zero hv hs]

theorem extract_bitsXor {R : Nat} {v w : Bits} (h : v.length = w.length) :
    extract R (bitsXor v w) = bitsXor (extract R v) (extract R w) := by
  simp only [extract, bitsXor, List.zipWith_map, List.zipWith_self]
  exact List.map_congr_left fun j _ => bitAt_bitsXor h

/-- Settles O11: the XOR of two codewords has syndrome 0 and carries the XOR of the data. -/
theorem encodeIsLinear : Obligations.EncodeIsLinear := by
  intro R a b ha hb
  have hlen : (enc R a).length = (enc R b).length := by simp
  refine enc_eq_of_syndrome_eq_zero (by simp) ?_ ?_
  · rw [syndrome_bitsXor hlen, syndrome_enc, syndrome_enc, Nat.xor_self]
  · rw [extract_bitsXor hlen, extract_enc ha, extract_enc hb]

/-! ## Constant words -/

theorem bitAt_replicate {n p : Nat} (b : Bool) (h1 : 1 ≤ p) (h2 : p ≤ n) : bitAt (List.replicate n b) p = b :=
  List.getD_replicate _ (by omega)

theorem extract_replicate (R : Nat) (b : Bool) :
    extract R (List.replicate (codeN R) b) = List.replicate (dataK R) b := by
  refine List.eq_replicate_iff.mpr ⟨extract_length R _, fun x hx => ?_⟩
  obtain ⟨j, hj, rfl⟩ := List.mem_map.mp hx
  obtain ⟨⟨h1, h2⟩, -⟩ := mem_dataPositions.mp (dataPos_mem_dataPositions (List.mem_range.mp hj))
  exact bitAt_replicate b h1 h2

theorem syndrome_zeros (R : Nat) : syndrome R (List.replicate (codeN R) false) = 0 := by
  refine syndrome_eq_zero_iff.mpr fun i _ => ?_
  rw [parityCheck, xorOver_congr (g := fun _ => false), xorOver_false]
  intro p hp
  obtain ⟨⟨h1, h2⟩, -⟩ := mem_cover.mp hp
  exact bitAt_replicate false h1 h2

theorem flipAll_zeros_positions (R : Nat) :
    flipAll R (List.replicate (codeN R) false) (positions R) = List.replicate (codeN R) true := by
  have hlen : (List.replicate (codeN R) false).length = codeN R := List.length_replicate
  refine bits_ext (flipAll_length _ hlen) List.length_replicate fun p h1 h2 => ?_
  rw [bitAt_flipAll hlen h1 h2 (positions_nodup R), bitAt_replicate _ h1 h2, bitAt_replicate _ h1 h2,
    Bool.false_xor, decide_eq_true (mem_positions.mpr ⟨h1, h2⟩)]

/-- From R = 2 on, N + 1 = 2^R is a multiple of 4, and the numbers below a multiple of 4 cancel. -/
theorem xorAll_positions {R : Nat} (h : 2 ≤ R) : xorAll (positions R) = 0 := by
  obtain ⟨r, rfl⟩ := Nat.exists_eq_add_of_le' h
  have hpos : 0 < 2 ^ r := Nat.two_pow_pos r
  have hmod : codeN (r + 2) % 4 = 3 := by rw [codeN, pow_add]; omega
  have hfin : Fin.ofNat 4 (codeN (r + 2)) = 3 := Fin.ext hmod
  have hrange := Nat.xor_range (codeN (r + 2))
  rw [hfin, List.range_eq_range', List.range'_succ, List.foldl_eq_foldr] at hrange
  simpa [xorAll, positions] using hrange

/-- The word of ones is the word of zeros with every position flipped. -/
theorem syndrome_ones {R : Nat} (h : 2 ≤ R) : syndrome R (List.replicate (codeN R) true) = 0 := by
  rw [← flipAll_zeros_positions, syndrome_flipAll List.length_replicate fun p hp => (mem_positions.mp hp).2,
    syndrome_zeros, xorAll_positions h, Nat.xor_self]

theorem enc_zeros (R : Nat) : enc R (List.replicate (dataK R) false) = List.replicate (codeN R) false :=
  enc_eq_of_syndrome_eq_zero List.length_replicate (syndrome_zeros R) (extract_replicate R false)

theorem enc_ones {R : Nat} (h : 2 ≤ R) : enc R (List.replicate (dataK R) true) = List.replicate (codeN R) true :=
  enc_eq_of_syndrome_eq_zero List.length_replicate (syndrome_ones h) (extract_replicate R true)

/-- Settles O12: the words of zeros and of ones have syndrome 0, so they are the codewords of their data. -/
theorem encodeCornerCases : Obligations.EncodeCornerCases :=
  ⟨enc_zeros, fun _ => enc_ones, by decide, fun _ _ d => bitAt_enc_dataPos d⟩

/-- Settles O21: the working copy has syndrome 0. -/
theorem workingCopyIsAlwaysACodeword : Obligations.WorkingCopyIsAlwaysACodeword :=
  fun _ _ hc => (enc_extract_correct hc).symm

theorem bitsOfNat_zero (w : Nat) : bitsOfNat w 0 = List.replicate w false := by
  refine List.eq_replicate_iff.mpr ⟨bitsOfNat_length w 0, fun x hx => ?_⟩
  obtain ⟨i, -, rfl⟩ := List.mem_map.mp hx
  exact Nat.zero_testBit i

theorem dec_enc {R : Nat} {d : Bits} (h : d.length = dataK R) :
    dec R (enc R d) = { data := d, corrected := false, syndrome := List.replicate R false } := by
  rw [← bitsOfNat_zero]; exact (decodeOfASingleError R d h).2

/-- Settles O22: the words of zeros and of ones are codewords; at R = 2 all eight words are checked. -/
theorem decodeCornerCases : Obligations.DecodeCornerCases := by
  refine ⟨fun R => ?_, fun R h => ?_, by decide⟩
  · rw [← enc_zeros, dec_enc List.length_replicate]
  · rw [← enc_ones h, dec_enc List.length_replicate]

end Sys2Proof.Machine
end

section
/-! ENCODE and DECODE on the machine (R49, R58, R60): what an accepted transaction answers, shows and leaves
unchanged. -/

namespace Sys2Proof.Machine

theorem exec_encode {s : State} {d : Bits} (hR : 2 ≤ s.cfg.R) (hP : s.cfg.encPIPE = 0 ∨ s.cfg.encPIPE = 1)
    (hd : d.length = s.cfg.K) : exec (.encode d) s = .next (s.driveEncoder false true d).encoderEdge :=
  execEncode_eq_next.mpr ⟨⟨hR, hP, hd⟩, rfl⟩

theorem exec_decode {s : State} {c : Bits} (hR : 2 ≤ s.cfg.R) (hP : s.cfg.decPIPE = 0 ∨ s.cfg.decPIPE = 1)
    (hc : c.length = s.cfg.N) : exec (.decode c) s = .next (s.driveDecoder (.driven false true c)).decoderEdge :=
  execDecode_eq_next.mpr ⟨⟨hR, hP, hc⟩, rfl⟩

theorem encObserved_after_encode {s : State} {d : Bits} (h : s.cfg.encPIPE = 0 ∨ s.cfg.encPIPE = 1) :
    (s.driveEncoder false true d).encoderEdge.encObserved = some (enc s.cfg.R d) := by
  rw [State.encObserved, if_pos (encOutValid_after_encode h), codeOut_after_encode h]

theorem decObserved_after_decode {s : State} {c : Bits} (h : s.cfg.decPIPE = 0 ∨ s.cfg.decPIPE = 1) :
    (s.driveDecoder (.driven false true c)).decoderEdge.decObserved = some (dec s.cfg.R c) := by
  rw [State.decObserved, if_pos (decOutValid_after_decode h), decOut_after_decode h]

/-- Settles O7: the transaction puts ENC of the operand on `code_out`, from the ports at PIPE = 0 and from the loaded
registers at PIPE = 1. -/
theorem encodeCompletes : Obligations.EncodeCompletes := by
  intro s d hR hP hd
  refine ⟨_, exec_encode hR hP hd, encOutValid_after_encode hP, ?_⟩
  rw [codeOut_after_encode hP]
  refine ⟨enc_length _ _, fun p => bitAt_enc_of_not_isPow2 d, fun i hi => ?_, fun h1 => ?_⟩
  · rw [bitAt_enc_two_pow d hi, parityBit_placement]
  · rw [State.encoderEdge_accept (by simpa) rfl rfl]
    exact ⟨rfl, rfl⟩

/-- Settles O8: ENCODE drives the encoder's ports and clocks the encoder alone. -/
theorem encodeFrame : Obligations.EncodeFrame := by
  intro s t d h
  obtain ⟨-, rfl⟩ := execEncode_eq_next.mp h
  have hcomb : s.cfg.encPIPE = 0 → (s.driveEncoder false true d).encoderEdge = s.driveEncoder false true d :=
    fun h0 => State.encoderEdge_comb h0
  simp +contextual [hcomb]

theorem getD_extract_correct {R j : Nat} {c : Bits} (hc : c.length = codeN R) (hj : j < dataK R) :
    (extract R (correct R c)).getD j false = (bitAt c (dataPos R j) ^^ (dataPos R j == syndrome R c)) := by
  obtain ⟨⟨h1, h2⟩, -⟩ := mem_dataPositions.mp (dataPos_mem_dataPositions hj)
  rw [getD_extract _ hj, bitAt_correct hc h1 h2]

/-- Settles O14: the transaction shows DEC of the word, from the ports at PIPE = 0 and from the loaded registers at
PIPE = 1. -/
theorem decodeCompletes : Obligations.DecodeCompletes := by
  intro s c hR hP hc
  refine ⟨_, syndrome s.cfg.R c, exec_decode hR hP hc, decOutValid_after_decode hP, syndrome_le_codeN _ _,
    fun i hi => testBit_syndrome c hi, ?_⟩
  rw [decOut_after_decode hP, dec_eq]
  refine ⟨rfl, rfl, extract_length _ _, fun j hj => getD_extract_correct hc hj, fun h1 => ?_⟩
  rw [State.decoderEdge_accept (by simpa) rfl rfl, ← dec_eq]
  exact ⟨rfl, rfl, rfl, rfl⟩

/-- Settles O15: DECODE drives the decoder's ports and clocks the decoder alone. -/
theorem decodeFrame : Obligations.DecodeFrame := by
  intro s t c h
  obtain ⟨-, rfl⟩ := execDecode_eq_next.mp h
  have hcomb : s.cfg.decPIPE = 0 → (s.driveDecoder (.driven false true c)).decoderEdge =
      s.driveDecoder (.driven false true c) := fun h0 => State.decoderEdge_comb h0
  simp +contextual [hcomb]

/-- Settles O19: ENCODE puts out the codeword, FLIP keeps the configuration, and DECODE shows DEC of the word with at
most one bit inverted. -/
theorem everySingleErrorIsCorrected : Obligations.EverySingleErrorIsCorrected := by
  intro s d hlegal hd
  obtain ⟨hR, hE, hD⟩ := hlegal
  obtain ⟨hflip, hclean⟩ := decodeOfASingleError s.cfg.R d hd
  have hcode := codeOut_after_encode (s := s) (d := d) hE
  have henc := exec_encode hR hE hd
  refine ⟨fun p h1 h2 => ?_, ?_⟩
  · refine ⟨_, _, _, henc, exec_flip_of_inRange (by simpa) ?_ (by simpa) (by simpa),
      exec_decode (by simpa) (by simpa) ?_, ?_⟩
    · rw [hcode]; simp
    · rw [hcode]; simp [flipBit_length]
    · rw [decObserved_after_decode (by simpa), hcode]
      simp [flipBit, hflip p h1 h2]
  · refine ⟨_, _, henc, exec_decode (by simpa) (by simpa) ?_, ?_⟩
    · rw [hcode]; simp
    · rw [decObserved_after_decode (by simpa), hcode]
      simp [hclean]

end Sys2Proof.Machine
end

section
/-! Elaboration and its checks (R67, R68, R70): what is refused, in which order, and what the default PIPE gives (R11). -/

namespace Sys2Proof.Machine

theorem checkR_of_lt {R : Nat} (h : R < 2) : checkR R = some (.invalidParameter .rAtLeastTwo R) := if_pos h

theorem checkPipe_of_ne {P : Nat} (h : ¬(P = 0 ∨ P = 1)) :
    checkPipe P = some (.invalidParameter .pipeZeroOrOne P) := if_neg h

theorem checkWidth_of_ne {port : Port} {e a : Nat} (h : a ≠ e) :
    checkWidth port e a = some (.lengthMismatch port e a) := if_neg h

/-- The check that `exec` runs on an operation first. -/
def operandCheck (c : Config) : Instr → Option Refusal
  | .encode d => checkEncoder c d.length
  | .decode x => checkDecoder c x.length
  | .flip x _ => checkFlip c x.length

theorem exec_of_operandCheck {s : State} {i : Instr} {r : Refusal} (h : operandCheck s.cfg i = some r) :
    exec i s = .refused r := by
  cases i with
  | encode d => have h' : checkEncoder s.cfg d.length = some r := h; simp [exec, execEncode, h']
  | decode c => have h' : checkDecoder s.cfg c.length = some r := h; simp [exec, execDecode, h']
  | flip c pos => have h' : checkFlip s.cfg c.length = some r := h; simp [exec, execFlip, h']

theorem operandCheck_of_lt {c : Config} (h : c.R < 2) (i : Instr) :
    operandCheck c i = some (.invalidParameter .rAtLeastTwo c.R) := by
  cases i <;> simp [operandCheck, checkEncoder, checkDecoder, checkFlip, checkR_of_lt h]

theorem operandCheck_of_length_ne {c : Config} (hc : c.Legal) {i : Instr}
    (h : i.operand.length ≠ i.operandWidth c.R) :
    ∃ port, operandCheck c i = some (.lengthMismatch port (i.operandWidth c.R) i.operand.length) := by
  obtain ⟨hR, hE, hD⟩ := hc
  cases i with
  | encode d =>
    refine ⟨.dataIn, ?_⟩
    rw [operandCheck, checkEncoder, checkR_eq_none.mpr hR, checkPipe_eq_none.mpr hE]; exact checkWidth_of_ne h
  | decode x =>
    refine ⟨.codeIn, ?_⟩
    rw [operandCheck, checkDecoder, checkR_eq_none.mpr hR, checkPipe_eq_none.mpr hD]; exact checkWidth_of_ne h
  | flip x pos =>
    refine ⟨.flipOperand, ?_⟩
    rw [operandCheck, checkFlip, checkR_eq_none.mpr hR]; exact checkWidth_of_ne h

/-- Settles O43: `exec` checks R, then the unit's own PIPE, then the operand's width, before anything else. -/
theorem unelaboratedOperationsAreRefused : Obligations.UnelaboratedOperationsAreRefused := by
  refine fun s i => ⟨fun hR => exec_of_operandCheck (operandCheck_of_lt hR i), ?_, ?_, fun hc hw => ?_⟩
  · rintro hR hP d rfl
    refine exec_of_operandCheck ?_
    rw [operandCheck, checkEncoder, checkR_eq_none.mpr hR, checkPipe_of_ne hP]; rfl
  · rintro hR hP c rfl
    refine exec_of_operandCheck ?_
    rw [operandCheck, checkDecoder, checkR_eq_none.mpr hR, checkPipe_of_ne hP]; rfl
  · obtain ⟨port, hport⟩ := operandCheck_of_length_ne hc hw
    exact ⟨port, exec_of_operandCheck hport⟩

/-- The checks of elaboration in their order (R70). -/
def elaborationCheck (c : Config) (w : Connections) : Option Refusal :=
  (checkR c.R).or ((checkPipe c.encPIPE).or ((checkPipe c.decPIPE).or
    ((checkWidth .dataIn c.K w.dataIn).or ((checkWidth .codeOut c.N w.codeOut).or
    ((checkWidth .codeIn c.N w.codeIn).or (checkWidth .dataOut c.K w.dataOut))))))

theorem elaborate_of_some {c : Config} {w : Connections} {r : Refusal} (h : elaborationCheck c w = some r) :
    elaborate c w = .error r := by
  unfold elaborationCheck at h; simp only [elaborate, h]

theorem elaborate_of_none {c : Config} {w : Connections} (h : elaborationCheck c w = none) :
    elaborate c w = .ok (State.powerUp c) := by
  unfold elaborationCheck at h; simp only [elaborate, h]

theorem elaborationCheck_eq_none {c : Config} {w : Connections} :
    elaborationCheck c w = none ↔
      c.Legal ∧ w.dataIn = c.K ∧ w.codeOut = c.N ∧ w.codeIn = c.N ∧ w.dataOut = c.K := by
  simp only [elaborationCheck, Option.or_eq_none_iff, checkR_eq_none, checkPipe_eq_none, checkWidth_eq_none,
    Config.Legal, and_assoc]

/-- What elaborates is a legal configuration at power-up. -/
theorem elaborate_eq_ok {c : Config} {w : Connections} {s : State} (h : elaborate c w = .ok s) :
    c.Legal ∧ s = State.powerUp c := by
  cases hcheck : elaborationCheck c w with
  | some r => rw [elaborate_of_some hcheck] at h; cases h
  | none =>
    rw [elaborate_of_none hcheck] at h
    exact ⟨(elaborationCheck_eq_none.mp hcheck).1, by cases h; rfl⟩

/-- On a legal configuration a failing check is a wrong width, of the first port that has one. -/
theorem elaborate_of_wrong_width {c : Config} {w : Connections} (hc : c.Legal)
    (hw : ¬(w.dataIn = c.K ∧ w.codeOut = c.N ∧ w.codeIn = c.N ∧ w.dataOut = c.K)) :
    ∃ port e a, elaborate c w = .error (.lengthMismatch port e a) ∧ a ≠ e ∧
      ((port = .dataIn ∧ e = c.K ∧ a = w.dataIn) ∨ (port = .codeOut ∧ e = c.N ∧ a = w.codeOut) ∨
        (port = .codeIn ∧ e = c.N ∧ a = w.codeIn) ∨ (port = .dataOut ∧ e = c.K ∧ a = w.dataOut)) := by
  obtain ⟨hR, hE, hD⟩ := hc
  have hcheck : elaborationCheck c w =
      (checkWidth .dataIn c.K w.dataIn).or ((checkWidth .codeOut c.N w.codeOut).or
        ((checkWidth .codeIn c.N w.codeIn).or (checkWidth .dataOut c.K w.dataOut))) := by
    rw [elaborationCheck, checkR_eq_none.mpr hR, checkPipe_eq_none.mpr hE, checkPipe_eq_none.mpr hD]; rfl
  by_cases h1 : w.dataIn = c.K
  · rw [checkWidth_eq_none.mpr h1, Option.none_or] at hcheck
    by_cases h2 : w.codeOut = c.N
    · rw [checkWidth_eq_none.mpr h2, Option.none_or] at hcheck
      by_cases h3 : w.codeIn = c.N
      · rw [checkWidth_eq_none.mpr h3, Option.none_or] at hcheck
        have h4 : w.dataOut ≠ c.K := fun h4 => hw ⟨h1, h2, h3, h4⟩
        rw [checkWidth_of_ne h4] at hcheck
        exact ⟨_, _, _, elaborate_of_some hcheck, h4, by simp⟩
      · rw [checkWidth_of_ne h3] at hcheck
        exact ⟨_, _, _, elaborate_of_some hcheck, h3, by simp⟩
    · rw [checkWidth_of_ne h2] at hcheck
      exact ⟨_, _, _, elaborate_of_some hcheck, h2, by simp⟩
  · rw [checkWidth_of_ne h1] at hcheck
    exact ⟨_, _, _, elaborate_of_some hcheck, h1, by simp⟩

/-- Settles O42: the checks stand in one chain in the order R, PIPE, widths, and the first that fails answers. -/
theorem elaborationChecksInOrder : Obligations.ElaborationChecksInOrder := by
  refine fun c w => ⟨fun hR => ?_, fun hR hP => ?_, elaborate_of_wrong_width, fun hc h1 h2 h3 h4 => ?_⟩
  · refine elaborate_of_some ?_
    rw [elaborationCheck, checkR_of_lt hR]; rfl
  · by_cases hE : c.encPIPE ≤ 1
    · have hD : ¬c.decPIPE ≤ 1 := fun hD => hP ⟨hE, hD⟩
      refine ⟨c.decPIPE, Or.inr rfl, hD, elaborate_of_some ?_⟩
      rw [elaborationCheck, checkR_eq_none.mpr hR, checkPipe_eq_none.mpr (by omega), checkPipe_of_ne (by omega)]; rfl
    · refine ⟨c.encPIPE, Or.inl rfl, hE, elaborate_of_some ?_⟩
      rw [elaborationCheck, checkR_eq_none.mpr hR, checkPipe_of_ne (by omega)]; rfl
  · exact elaborate_of_none (elaborationCheck_eq_none.mpr ⟨hc, h1, h2, h3, h4⟩)

@[simp] theorem powerUp_cfg (c : Config) : (State.powerUp c).cfg = c := rfl

/-- Settles O51: the default 0 makes both units combinational, so no edge writes a register. -/
theorem defaultPipeIsCombinational : Obligations.DefaultPipeIsCombinational := by
  intro R d c hR hd hc
  have hok : elaborate { R := R } ⟨dataK R, codeN R, codeN R, dataK R⟩ = .ok (State.powerUp { R := R }) :=
    elaborate_of_none (elaborationCheck_eq_none.mpr ⟨⟨hR, Or.inl rfl, Or.inl rfl⟩, rfl, rfl, rfl, rfl⟩)
  refine ⟨_, _, _, hok, rfl, exec_encode hR (Or.inl rfl) hd, encObserved_after_encode (Or.inl rfl),
    exec_decode (by simpa) (by simp) (by simpa), ?_, ?_⟩
  · rw [decObserved_after_decode (by simp)]; simp
  · rw [State.encoderEdge_comb (by simp), State.decoderEdge_comb (by simp)]
    exact ⟨rfl, rfl, rfl, rfl, rfl, rfl⟩

end Sys2Proof.Machine
end

section
/-! Reading a unit's ports (R37 to R39). Both units read `rst`, `in_valid` and the vector in one way, so what is read,
and which port is refused, is said once. -/

namespace Sys2Proof.Machine

/-! ## Single wires -/

theorem twoValued_eq_false_iff {b : Logic} : Logic.twoValued b = false ↔ b.toBool? = none := by
  cases b <;> simp [Logic.twoValued, Logic.toBool?]

theorem eq_zero_of_twoValued {b : Logic} (h : Logic.twoValued b = true) (hne : b ≠ .one) : b = .zero := by
  cases b with
  | zero => rfl
  | one => exact absurd rfl hne
  | x => cases h
  | z => cases h

theorem readWire_eq_ok {port : Port} {b : Logic} {x : Bool} : readWire port b = .ok x ↔ b.toBool? = some x := by
  cases b <;> simp [readWire, Logic.toBool?]

theorem readWire_of_not_twoValued {port : Port} {b : Logic} (h : Logic.twoValued b = false) :
    readWire port b = .error (.invalidBitValue port) := by
  simp [readWire, twoValued_eq_false_iff.mp h]

theorem exists_readWire_eq_ok {port : Port} {b : Logic} (h : Logic.twoValued b = true) :
    ∃ x, readWire port b = .ok x := by
  obtain ⟨x, hx⟩ := Option.isSome_iff_exists.mp h
  exact ⟨x, readWire_eq_ok.mpr hx⟩

theorem readRst_of_not_twoValued {P : Nat} {b : Logic} (hP : P ≠ 0) (h : Logic.twoValued b = false) :
    readRst P b = .error (.invalidBitValue .rst) := by
  rw [readRst, if_neg hP, readWire_of_not_twoValued h]

theorem exists_readRst_eq_ok {P : Nat} {b : Logic} (h : ¬(P ≠ 0 ∧ Logic.twoValued b = false)) :
    ∃ x, readRst P b = .ok x := by
  by_cases hP : P = 0
  · exact ⟨false, if_pos hP⟩
  · rw [readRst, if_neg hP]
    exact exists_readWire_eq_ok (by simpa [hP] using h)

theorem readRst_zero (P : Nat) : readRst P .zero = .ok false := by
  unfold readRst; split_ifs <;> rfl

theorem readRst_one {P : Nat} (h : P = 1) : readRst P .one = .ok true := by
  subst h; rfl

/-! ## Vectors -/

theorem all_twoValued_iff_isSome {v : LogicVec} : v.all Logic.twoValued = (toBits? v).isSome :=
  (toBits?_isSome v).symm

theorem all_twoValued_ofBits (d : Bits) : (ofBits d).all Logic.twoValued = true := by
  rw [all_twoValued_iff_isSome, toBits?_ofBits]; rfl

theorem ofBits_injective : Function.Injective ofBits := fun a b h => by
  have hbits : toBits? (ofBits a) = toBits? (ofBits b) := congrArg toBits? h
  simpa using hbits

theorem readVector_of_not_twoValued {port : Port} {w : Nat} {v : LogicVec} (hw : v.length = w)
    (h : v.all Logic.twoValued = false) : readVector port w v = .error (.invalidBitValue port) := by
  have hnone : toBits? v = none := by simpa [all_twoValued_iff_isSome] using h
  simp [readVector, hw, hnone]

theorem exists_readVector_of_twoValued {port : Port} {w : Nat} {v : LogicVec} (hw : v.length = w)
    (h : v.all Logic.twoValued = true) : ∃ d, readVector port w v = .ok d := by
  obtain ⟨d, hd⟩ := Option.isSome_iff_exists.mp (all_twoValued_iff_isSome ▸ h)
  exact ⟨d, by simp [readVector, hw, hd]⟩

/-! ## A unit's three inputs -/

/-- What a unit reads from its `rst`, its `in_valid` and its vector, as levels in the shape of the encoder's ports. -/
def readPorts (PIPE width draws : Nat) (port : Port) (rst inValid : Logic) (v : LogicVec) :
    Except Refusal EncPins :=
  match readRst PIPE rst with
  | .error r => .error r
  | .ok rst =>
    match readWire .inValid inValid with
    | .error r => .error r
    | .ok false => .ok { rst := rst, inValid := false, dataIn := idleBits draws v }
    | .ok true =>
      match readVector port width v with
      | .error err => .error (decodeRefusal err)
      | .ok d => .ok { rst := rst, inValid := true, dataIn := d }

/-- The levels l are what the wires carry, of the port's width; only a vector with `in_valid` = 1 is determined. -/
structure LevelsRead (PIPE width : Nat) (rst inValid : Logic) (v : LogicVec) (l : EncPins) : Prop where
  rst_eq : readRst PIPE rst = .ok l.rst
  inValid_eq : inValid.toBool? = some l.inValid
  length_eq : l.dataIn.length = width
  vector_eq : l.inValid = true → v = ofBits l.dataIn

section
variable {PIPE width draws : Nat} {port : Port} {rst inValid : Logic} {v : LogicVec} {l : EncPins}

theorem levelsRead_of_readPorts (hw : v.length = width)
    (h : readPorts PIPE width draws port rst inValid v = .ok l) : LevelsRead PIPE width rst inValid v l := by
  unfold readPorts at h
  split at h
  · cases h
  · rename_i hr
    split at h
    · cases h
    · rename_i hv
      cases h
      exact ⟨hr, readWire_eq_ok.mp hv, by simpa, by simp⟩
    · rename_i hv
      split at h
      · cases h
      · rename_i d hd
        cases h
        obtain ⟨hlen, hbits⟩ := readVector_eq_ok.mp hd
        exact ⟨hr, readWire_eq_ok.mp hv, hlen, fun _ => hbits⟩

/-- The ports are refused for the port that `nonBinaryPort` names, and read where it names none (R39). -/
theorem readPorts_cases (hw : v.length = width) :
    (∃ q, nonBinaryPort PIPE port rst inValid v = some q ∧
      readPorts PIPE width draws port rst inValid v = .error (.invalidBitValue q)) ∨
    (nonBinaryPort PIPE port rst inValid v = none ∧ ∃ l, readPorts PIPE width draws port rst inValid v = .ok l) := by
  unfold nonBinaryPort
  split_ifs with hrst hvalid hvec
  · exact .inl ⟨_, rfl, by simp [readPorts, readRst_of_not_twoValued hrst.1 hrst.2]⟩
  · obtain ⟨r, hr⟩ := exists_readRst_eq_ok hrst
    exact .inl ⟨_, rfl, by simp [readPorts, hr, readWire_of_not_twoValued hvalid]⟩
  · obtain ⟨r, hr⟩ := exists_readRst_eq_ok hrst
    obtain ⟨rfl, hvec⟩ := hvec
    have hone : readWire .inValid .one = .ok true := rfl
    exact .inl ⟨_, rfl, by simp [readPorts, hr, hone, readVector_of_not_twoValued hw hvec, decodeRefusal]⟩
  · obtain ⟨r, hr⟩ := exists_readRst_eq_ok hrst
    obtain ⟨x, hx⟩ := exists_readWire_eq_ok (port := .inValid) (by simpa using hvalid)
    refine .inr ⟨rfl, ?_⟩
    cases x with
    | false => simp [readPorts, hr, hx]
    | true =>
      have hone : inValid = .one := Logic.eq_ofBool (readWire_eq_ok.mp hx)
      obtain ⟨d, hd⟩ := exists_readVector_of_twoValued (port := port) hw (by simpa [hone] using hvec)
      simp [readPorts, hr, hx, hd]

/-- Legal inputs have the port's width and no X or Z on a sampled wire. -/
theorem legalPorts_iff (port : Port) :
    legalPorts PIPE width rst inValid v = true ↔
      v.length = width ∧ nonBinaryPort PIPE port rst inValid v = none := by
  simp only [legalPorts, nonBinaryPort, Bool.and_eq_true, beq_iff_eq, Bool.or_eq_true, and_assoc]
  refine and_congr_right fun _ => ?_
  split_ifs with hrst hvalid hvec
  · simp [hrst]
  · simp [hvalid]
  · simp [hvec]
  · have hr : PIPE = 0 ∨ Logic.twoValued rst = true := by
      by_cases h0 : PIPE = 0
      · exact .inl h0
      · exact .inr (by simpa [h0] using hrst)
    have hsampled : inValid = .zero ∨ v.all Logic.twoValued = true := by
      by_cases hone : inValid = .one
      · exact .inr (by simpa [hone] using hvec)
      · exact .inl (eq_zero_of_twoValued (by simpa using hvalid) hone)
    exact iff_of_true ⟨hr, by simpa using hvalid, hsampled⟩ rfl

/-- What is read depends on the draws in an unsampled vector alone. -/
theorem readPorts_draws (draws' : Nat) :
    (∃ r, readPorts PIPE width draws port rst inValid v = .error r ∧
      readPorts PIPE width draws' port rst inValid v = .error r) ∨
    (∃ l l', readPorts PIPE width draws port rst inValid v = .ok l ∧
      readPorts PIPE width draws' port rst inValid v = .ok l' ∧ l.rst = l'.rst ∧ l.inValid = l'.inValid ∧
      (l.inValid = true → l.dataIn = l'.dataIn)) := by
  unfold readPorts
  split
  · exact .inl ⟨_, rfl, rfl⟩
  · split
    · exact .inl ⟨_, rfl, rfl⟩
    · exact .inr ⟨_, _, rfl, rfl, rfl, rfl, by simp⟩
    · split
      · exact .inl ⟨_, rfl, rfl⟩
      · exact .inr ⟨_, _, rfl, rfl, rfl, rfl, fun _ => rfl⟩

end

namespace LevelsRead

variable {PIPE width : Nat} {rst inValid : Logic} {v : LogicVec} {l : EncPins}

theorem rst_eq_false_of_comb (h : LevelsRead PIPE width rst inValid v l) : PIPE = 0 → l.rst = false :=
  readRst_eq_ok h.rst_eq

theorem rst_eq_true (h : LevelsRead PIPE width rst inValid v l) (hP : PIPE = 1) (hrst : rst = .one) :
    l.rst = true :=
  Except.ok.inj ((hrst ▸ h.rst_eq).symm.trans (readRst_one hP))

theorem rst_eq_false (h : LevelsRead PIPE width rst inValid v l) (hrst : rst = .zero) : l.rst = false :=
  Except.ok.inj ((hrst ▸ h.rst_eq).symm.trans (readRst_zero PIPE))

theorem inValid_eq_false (h : LevelsRead PIPE width rst inValid v l) (hvalid : inValid = .zero) :
    l.inValid = false := by
  subst hvalid; exact (Option.some.inj h.inValid_eq).symm

/-- A transaction puts exactly its operand on the ports. -/
theorem eq_of_transaction {d : Bits} (h : LevelsRead PIPE width .zero .one (ofBits d) l) :
    l = { rst := false, inValid := true, dataIn := d } := by
  have hvalid : l.inValid = true := (Option.some.inj h.inValid_eq).symm
  have hdata : d = l.dataIn := ofBits_injective (h.vector_eq hvalid)
  have hrst : l.rst = false := h.rst_eq_false rfl
  obtain ⟨r, i, x⟩ := l
  subst hrst hvalid hdata
  rfl

end LevelsRead

end Sys2Proof.Machine
end

section
/-! What a presented stimulus does (R22, R39): the levels it puts on the ports, and the edge that follows. On a legal
configuration it is refused for an X or Z, and otherwise every legal stimulus gives a next state. -/

namespace Sys2Proof.Machine

/-! ## The state with levels on its ports -/

/-- s with the encoder's ports at p, the decoder's at q, and n free bits drawn. -/
def State.withInputs (s : State) (p : EncPins) (q : DecPins) (n : Nat) : State :=
  { s with encPins := p, decPins := q, draws := n }

section
variable (s : State) (p : EncPins) (q : DecPins) (n : Nat)

@[simp] theorem State.withInputs_cfg : (s.withInputs p q n).cfg = s.cfg := rfl
@[simp] theorem State.withInputs_encPins : (s.withInputs p q n).encPins = p := rfl
@[simp] theorem State.withInputs_decPins : (s.withInputs p q n).decPins = q := rfl
@[simp] theorem State.withInputs_encV : (s.withInputs p q n).encV = s.encV := rfl
@[simp] theorem State.withInputs_encCode : (s.withInputs p q n).encCode = s.encCode := rfl
@[simp] theorem State.withInputs_decV : (s.withInputs p q n).decV = s.decV := rfl
@[simp] theorem State.withInputs_decData : (s.withInputs p q n).decData = s.decData := rfl
@[simp] theorem State.withInputs_decCorr : (s.withInputs p q n).decCorr = s.decCorr := rfl
@[simp] theorem State.withInputs_decSyn : (s.withInputs p q n).decSyn = s.decSyn := rfl
@[simp] theorem State.withInputs_tbOut : (s.withInputs p q n).tbOut = s.tbOut := rfl
@[simp] theorem State.withInputs_pending : (s.withInputs p q n).pending = s.pending := rfl

end

/-- The level on the decoder's `rst` that a connection carries. -/
def DecPins.rst : DecPins → Bool
  | .driven rst _ _ => rst
  | .linked rst _ => rst

theorem State.decRst_eq (s : State) : s.decRst = s.decPins.rst := by
  cases h : s.decPins <;> simp [State.decRst, DecPins.rst, h]

/-- The levels p are what the drive e puts on the encoder's ports. -/
abbrev EncLevels (c : Config) (e : EncDrive) (p : EncPins) : Prop :=
  LevelsRead c.encPIPE c.K e.rst e.inValid e.dataIn p

/-- The connection q is what the drive makes of the decoder's ports: levels that it carries, or the link it asks for. -/
inductive DecLevels (c : Config) : DecDrive → DecPins → Prop
  | driven {rst inValid : Logic} {v : LogicVec} {l : EncPins} (h : LevelsRead c.decPIPE c.N rst inValid v l) :
      DecLevels c (.ports rst inValid v) (.driven l.rst l.inValid l.dataIn)
  | linked {rst : Logic} {r : Bool} {flipAt : Option Nat} (hrst : readRst c.decPIPE rst = .ok r)
      (hflip : ∀ pos ∈ flipAt, 1 ≤ pos ∧ pos ≤ c.N) : DecLevels c (.linked rst flipAt) (.linked r flipAt)

namespace DecLevels

variable {c : Config} {d : DecDrive} {q : DecPins}

theorem rst_eq (h : DecLevels c d q) : readRst c.decPIPE d.rst = .ok q.rst := by
  cases h with
  | driven h => exact h.rst_eq
  | linked hrst _ => exact hrst

theorem rst_eq_true (h : DecLevels c d q) (hP : c.decPIPE = 1) (hd : d.rst = .one) : q.rst = true :=
  Except.ok.inj ((hd ▸ h.rst_eq).symm.trans (readRst_one hP))

theorem fits (h : DecLevels c d q) : q.fits c = true := by
  cases h with
  | driven h => simpa [DecPins.fits] using h.length_eq
  | @linked _ _ flipAt _ hflip =>
    cases flipAt with
    | none => rfl
    | some pos => exact decide_eq_true (hflip pos rfl)

theorem eq_of_transaction {x : Bits} (h : DecLevels c (lineDec x) q) : q = .driven false true x := by
  cases h with
  | driven h => rw [h.eq_of_transaction]

theorem eq_of_idle {rst : Logic} {v : LogicVec} (h : DecLevels c (.ports rst .zero v) q) :
    ∃ r x, q = .driven r false x := by
  cases h with
  | driven h => exact ⟨_, _, by rw [h.inValid_eq_false rfl]⟩

theorem eq_of_linked {rst : Logic} {flipAt : Option Nat} (h : DecLevels c (.linked rst flipAt) q) :
    ∃ r, q = .linked r flipAt := by
  cases h with
  | linked => exact ⟨_, rfl⟩

theorem eq_of_linked_zero {flipAt : Option Nat} (h : DecLevels c (.linked .zero flipAt) q) :
    q = .linked false flipAt := by
  cases h with
  | linked hrst _ => rw [Except.ok.inj (hrst.symm.trans (readRst_zero _))]

end DecLevels

/-! ## Driving the ports -/

/-- An outcome of reading: a refusal, or the state that the levels give. -/
def ofRead (o : Except Refusal EncPins) (f : EncPins → State) : Host.Outcome State Fault Refusal :=
  match o with
  | .error r => .refused r
  | .ok l => .next (f l)

theorem ofRead_eq_next {o : Except Refusal EncPins} {f : EncPins → State} {t : State} :
    ofRead o f = .next t ↔ ∃ l, o = .ok l ∧ f l = t := by
  cases o <;> simp [ofRead]

/-- The draws after an idle vector is read, or not. -/
def drawsAfter (n : Nat) (v : LogicVec) (l : EncPins) : Nat := if l.inValid then n else n + v.length

theorem driveEncoderPorts_eq_ofRead {e : EncDrive} {s : State} (h : checkEncoder s.cfg e.dataIn.length = none) :
    driveEncoderPorts e s =
      ofRead (readPorts s.cfg.encPIPE s.cfg.K s.draws .dataIn e.rst e.inValid e.dataIn)
        fun l => s.withInputs l s.decPins (drawsAfter s.draws e.dataIn l) := by
  unfold driveEncoderPorts readPorts
  simp only [h]
  cases readRst s.cfg.encPIPE e.rst with
  | error r => rfl
  | ok rst =>
    cases readWire .inValid e.inValid with
    | error r => rfl
    | ok x =>
      cases x with
      | false => rfl
      | true => cases readVector .dataIn s.cfg.K e.dataIn <;> rfl

theorem driveDecoderPorts_eq_ofRead {rst inValid : Logic} {v : LogicVec} {s : State}
    (h : checkDecoder s.cfg v.length = none) :
    driveDecoderPorts (.ports rst inValid v) s =
      ofRead (readPorts s.cfg.decPIPE s.cfg.N s.draws .codeIn rst inValid v)
        fun l => s.withInputs s.encPins (.driven l.rst l.inValid l.dataIn) (drawsAfter s.draws v l) := by
  unfold driveDecoderPorts readPorts
  simp only [h]
  cases readRst s.cfg.decPIPE rst with
  | error r => rfl
  | ok rst =>
    cases readWire .inValid inValid with
    | error r => rfl
    | ok x =>
      cases x with
      | false => rfl
      | true => cases readVector .codeIn s.cfg.N v <;> rfl

theorem driveEncoderPorts_eq_next {e : EncDrive} {s t : State} (h : driveEncoderPorts e s = .next t) :
    ∃ p n, EncLevels s.cfg e p ∧ t = s.withInputs p s.decPins n := by
  obtain ⟨hcheck, -⟩ := driveEncoderPorts_next h
  obtain ⟨-, -, hw⟩ := checkEncoder_eq_none.mp hcheck
  rw [driveEncoderPorts_eq_ofRead hcheck, ofRead_eq_next] at h
  obtain ⟨l, hl, rfl⟩ := h
  exact ⟨l, _, levelsRead_of_readPorts hw hl, rfl⟩

theorem driveDecoderPorts_eq_next {d : DecDrive} {s t : State} (h : driveDecoderPorts d s = .next t) :
    ∃ q n, DecLevels s.cfg d q ∧ t = s.withInputs s.encPins q n := by
  cases d with
  | ports rst inValid v =>
    cases hcheck : checkDecoder s.cfg v.length with
    | some r => simp [driveDecoderPorts, hcheck] at h
    | none =>
      obtain ⟨-, -, hw⟩ := checkDecoder_eq_none.mp hcheck
      rw [driveDecoderPorts_eq_ofRead hcheck, ofRead_eq_next] at h
      obtain ⟨l, hl, rfl⟩ := h
      exact ⟨_, _, .driven (levelsRead_of_readPorts hw hl), rfl⟩
  | linked rst flipAt =>
    unfold driveDecoderPorts at h
    simp only at h
    split at h
    · cases h
    · split at h
      · cases h
      · rename_i hrst
        split at h
        · cases h
        · rename_i hflip
          cases h
          refine ⟨_, _, .linked hrst fun pos hpos => ?_, rfl⟩
          obtain rfl : flipAt = some pos := hpos
          exact checkPosition_eq_none.mp hflip

section
variable {s : State} (hc : s.cfg.Legal)
include hc

theorem checkEncoder_of_legal {n : Nat} (hn : n = s.cfg.K) : checkEncoder s.cfg n = none :=
  checkEncoder_eq_none.mpr ⟨hc.two_le_R, hc.encPIPE_eq, hn⟩

theorem checkDecoder_of_legal {n : Nat} (hn : n = s.cfg.N) : checkDecoder s.cfg n = none :=
  checkDecoder_eq_none.mpr ⟨hc.two_le_R, hc.decPIPE_eq, hn⟩

/-- The encoder's inputs are refused for the port that `nonBinaryPort` names (R39). -/
theorem driveEncoderPorts_of_nonBinary {e : EncDrive} {port : Port} (hw : e.dataIn.length = s.cfg.K)
    (hport : e.nonBinaryPort s.cfg = some port) :
    driveEncoderPorts e s = .refused (.invalidBitValue port) := by
  rw [driveEncoderPorts_eq_ofRead (checkEncoder_of_legal hc hw)]
  unfold EncDrive.nonBinaryPort at hport
  obtain ⟨q, hq, hread⟩ | ⟨hnone, -⟩ := readPorts_cases (draws := s.draws) hw
  · rw [hread, ← Option.some.inj (hport.symm.trans hq)]; rfl
  · cases hport.symm.trans hnone

theorem driveEncoderPorts_of_legal {e : EncDrive} (he : EncDrive.legal s.cfg e = true) :
    ∃ p n, EncLevels s.cfg e p ∧ driveEncoderPorts e s = .next (s.withInputs p s.decPins n) := by
  obtain ⟨hw, hport⟩ := (legalPorts_iff .dataIn).mp he
  obtain ⟨q, hq, -⟩ | ⟨-, l, hl⟩ := readPorts_cases (draws := s.draws) (port := .dataIn) hw
  · cases hport.symm.trans hq
  · exact ⟨l, _, levelsRead_of_readPorts hw hl, by
      rw [driveEncoderPorts_eq_ofRead (checkEncoder_of_legal hc hw), hl]; rfl⟩

theorem driveDecoderPorts_linked_of_rst_error {rst : Logic} {flipAt : Option Nat} {r : Refusal}
    (hrst : readRst s.cfg.decPIPE rst = .error r) : driveDecoderPorts (.linked rst flipAt) s = .refused r := by
  simp only [driveDecoderPorts, checkEncoder_of_legal hc rfl, checkDecoder_of_legal hc rfl, Option.or_none, hrst]

theorem driveDecoderPorts_linked_of_inRange {rst : Logic} {flipAt : Option Nat} {r : Bool}
    (hrst : readRst s.cfg.decPIPE rst = .ok r) (hflip : ∀ pos ∈ flipAt, 1 ≤ pos ∧ pos ≤ s.cfg.N) :
    driveDecoderPorts (.linked rst flipAt) s = .next (s.driveDecoder (.linked r flipAt)) := by
  have hpos : flipAt.bind (checkPosition s.cfg.R) = none :=
    Option.bind_eq_none_iff.mpr fun pos h => checkPosition_eq_none.mpr (hflip pos h)
  simp only [driveDecoderPorts, checkEncoder_of_legal hc rfl, checkDecoder_of_legal hc rfl, Option.or_none, hrst, hpos]

/-- The decoder's inputs are refused for the port that `nonBinaryPort` names (R39). -/
theorem driveDecoderPorts_of_nonBinary {d : DecDrive} {port : Port} (hw : d.widthFits s.cfg = true)
    (hport : d.nonBinaryPort s.cfg = some port) :
    driveDecoderPorts d s = .refused (.invalidBitValue port) := by
  cases d with
  | ports rst inValid v =>
    have hw : v.length = s.cfg.N := beq_iff_eq.mp hw
    rw [driveDecoderPorts_eq_ofRead (checkDecoder_of_legal hc hw)]
    unfold DecDrive.nonBinaryPort at hport
    obtain ⟨q, hq, hread⟩ | ⟨hnone, -⟩ := readPorts_cases (draws := s.draws) hw
    · rw [hread, ← Option.some.inj (hport.symm.trans hq)]; rfl
    · cases hport.symm.trans hnone
  | linked rst flipAt =>
    simp only [DecDrive.nonBinaryPort] at hport
    split_ifs at hport with hrst
    rw [driveDecoderPorts_linked_of_rst_error hc (readRst_of_not_twoValued hrst.1 hrst.2), ← Option.some.inj hport]

theorem driveDecoderPorts_of_legal {d : DecDrive} (hd : DecDrive.legal s.cfg d = true) :
    ∃ q n, DecLevels s.cfg d q ∧ driveDecoderPorts d s = .next (s.withInputs s.encPins q n) := by
  cases d with
  | ports rst inValid v =>
    obtain ⟨hw, hport⟩ := (legalPorts_iff .codeIn).mp hd
    obtain ⟨q, hq, -⟩ | ⟨-, l, hl⟩ := readPorts_cases (draws := s.draws) (port := .codeIn) hw
    · cases hport.symm.trans hq
    · exact ⟨_, _, .driven (levelsRead_of_readPorts hw hl), by
        rw [driveDecoderPorts_eq_ofRead (checkDecoder_of_legal hc hw), hl]; rfl⟩
  | linked rst flipAt =>
    simp only [DecDrive.legal, Bool.and_eq_true, Bool.or_eq_true, beq_iff_eq] at hd
    obtain ⟨hrst, hflip⟩ := hd
    have hflip : ∀ pos ∈ flipAt, 1 ≤ pos ∧ pos ≤ s.cfg.N := by simpa [Option.all_eq_true] using hflip
    obtain ⟨r, hr⟩ := exists_readRst_eq_ok (P := s.cfg.decPIPE) (b := rst) fun hx => by simp [hx] at hrst
    exact ⟨_, s.draws, .linked hr hflip, driveDecoderPorts_linked_of_inRange hc hr hflip⟩

end

/-! ## One step -/

theorem step_eq_present {s : State} {st : Stimulus} {rest : List Stimulus} (h : s.pending = st :: rest) :
    step s = present st (s.setPending rest) := by
  simp only [step, h]

theorem present_both (e : EncDrive) (d : DecDrive) (s : State) :
    present (.both e d) s =
      andThen (driveEncoderPorts e s) fun s => andThen (driveDecoderPorts d s) fun s => .next s.clockEdge := rfl

section
variable {s : State} {rest : List Stimulus} (hc : s.cfg.Legal)
include hc

/-- A legal stimulus of the encoder: levels on its ports, then its edge. -/
theorem step_encoder_of_legal {e : EncDrive} (he : EncDrive.legal s.cfg e = true)
    (hs : s.pending = .encoder e :: rest) :
    ∃ p n, EncLevels s.cfg e p ∧
      step s = .next ((s.setPending rest).withInputs p s.decPins n).encoderEdge := by
  obtain ⟨p, n, hp, hdrive⟩ := driveEncoderPorts_of_legal (s := s.setPending rest) hc he
  exact ⟨p, n, hp, by rw [step_eq_present hs, present_encoder, hdrive]; rfl⟩

/-- A legal stimulus of the decoder: a connection of its ports, then its edge. -/
theorem step_decoder_of_legal {d : DecDrive} (hd : DecDrive.legal s.cfg d = true)
    (hs : s.pending = .decoder d :: rest) :
    ∃ q n, DecLevels s.cfg d q ∧
      step s = .next ((s.setPending rest).withInputs s.encPins q n).decoderEdge := by
  obtain ⟨q, n, hq, hdrive⟩ := driveDecoderPorts_of_legal (s := s.setPending rest) hc hd
  exact ⟨q, n, hq, by rw [step_eq_present hs, present_decoder, hdrive]; rfl⟩

/-- A legal stimulus of both units: levels on all ports, then the shared edge. -/
theorem step_both_of_legal {e : EncDrive} {d : DecDrive} (he : EncDrive.legal s.cfg e = true)
    (hd : DecDrive.legal s.cfg d = true) (hs : s.pending = .both e d :: rest) :
    ∃ p q n, EncLevels s.cfg e p ∧ DecLevels s.cfg d q ∧
      step s = .next ((s.setPending rest).withInputs p q n).clockEdge := by
  obtain ⟨p, n, hp, hdriveE⟩ := driveEncoderPorts_of_legal (s := s.setPending rest) hc he
  obtain ⟨q, m, hq, hdriveD⟩ :=
    driveDecoderPorts_of_legal (s := (s.setPending rest).withInputs p s.decPins n) hc hd
  exact ⟨p, q, m, hp, hq, by
    rw [step_eq_present hs, present_both, hdriveE, andThen_next]
    exact congrArg (andThen · _) hdriveD⟩

end

/-- A testbench call whose operand is read is FLIP of it. -/
theorem present_testbench_of_decode {s : State} {v : LogicVec} {pos : Nat} {i : Instr} (hR : 2 ≤ s.cfg.R)
    (h : decodeWord s.cfg.R (.testbenchCall v pos) = .ok i) : present (.testbench v pos) s = exec i s := by
  simp only [present, checkR_eq_none.mpr hR, h]

theorem present_testbench_of_decode_error {s : State} {v : LogicVec} {pos : Nat} {err : DecodeError}
    (hR : 2 ≤ s.cfg.R) (h : decodeWord s.cfg.R (.testbenchCall v pos) = .error err) :
    present (.testbench v pos) s = .refused (decodeRefusal err) := by
  simp only [present, checkR_eq_none.mpr hR, h]

/-- What a presented stimulus did, where it gave a next state: it put levels on the ports of one unit or of both and
gave an edge, or it was a FLIP call. -/
theorem present_eq_next {st : Stimulus} {s t : State} (h : present st s = .next t) :
    (∃ e p n, EncLevels s.cfg e p ∧ t = (s.withInputs p s.decPins n).encoderEdge) ∨
    (∃ d q n, DecLevels s.cfg d q ∧ t = (s.withInputs s.encPins q n).decoderEdge) ∨
    (∃ e d p q n, EncLevels s.cfg e p ∧ DecLevels s.cfg d q ∧ t = (s.withInputs p q n).clockEdge) ∨
    (∃ c pos, c.length = s.cfg.N ∧ t = s.setTbOut (flipBit s.cfg.R c pos)) := by
  cases st with
  | encoder e =>
    rw [present_encoder, andThen_eq_next] at h
    obtain ⟨u, hdrive, hu⟩ := h
    obtain ⟨p, n, hp, rfl⟩ := driveEncoderPorts_eq_next hdrive
    cases hu
    exact .inl ⟨e, p, n, hp, rfl⟩
  | decoder d =>
    rw [present_decoder, andThen_eq_next] at h
    obtain ⟨u, hdrive, hu⟩ := h
    obtain ⟨q, n, hq, rfl⟩ := driveDecoderPorts_eq_next hdrive
    cases hu
    exact .inr (.inl ⟨d, q, n, hq, rfl⟩)
  | both e d =>
    rw [present_both, andThen_eq_next] at h
    obtain ⟨u, hdriveE, hu⟩ := h
    obtain ⟨p, n, hp, rfl⟩ := driveEncoderPorts_eq_next hdriveE
    obtain ⟨v, hdriveD, hv⟩ := andThen_eq_next.mp hu
    obtain ⟨q, m, hq, rfl⟩ := driveDecoderPorts_eq_next hdriveD
    cases hv
    exact .inr (.inr (.inl ⟨e, d, p, q, m, hp, hq, rfl⟩))
  | testbench v pos =>
    simp only [present] at h
    split at h
    · cases h
    · split at h
      · rename_i hi
        obtain ⟨c, rfl, -⟩ := decodeWord_testbenchCall.mp hi
        obtain ⟨⟨⟨-, hlen⟩, -⟩, rfl⟩ := execFlip_eq_next.mp h
        exact .inr (.inr (.inr ⟨c, pos, hlen, rfl⟩))
      · cases h

end Sys2Proof.Machine
end

section
/-! What every step leaves unchanged (R15, R19), and the transactions among the stimuli (R38, R45). -/

namespace Sys2Proof.Machine

/-! ## Transactions (R38, R45) -/

theorem encoderTransaction_of_decode {c : Config} {v : LogicVec} {i : Instr}
    (h : decodeWord c.R (.encoderPort v) = .ok i) :
    encoderTransaction c { rst := .zero, inValid := .one, dataIn := v } = some i := by
  simp only [encoderTransaction, readRst_zero, h]

theorem decoderTransaction_of_decode {c : Config} {v : LogicVec} {i : Instr}
    (h : decodeWord c.R (.decoderPort v) = .ok i) : decoderTransaction c (.ports .zero .one v) = some i := by
  simp only [decoderTransaction, readRst_zero, h]

theorem present_stimulus_of_decode {s : State} {w : PortWord} {i : Instr} (h : decodeWord s.cfg.R w = .ok i) :
    present w.stimulus s = exec i s := by
  cases w with
  | encoderPort v => simp only [PortWord.stimulus, present, encoderTransaction_of_decode h]
  | decoderPort v => simp only [PortWord.stimulus, present, decoderTransaction_of_decode h]
  | testbenchCall v pos =>
    by_cases hR : 2 ≤ s.cfg.R
    · exact present_testbench_of_decode hR h
    · have hcheck : checkR s.cfg.R = some (.invalidParameter .rAtLeastTwo s.cfg.R) := checkR_of_lt (by omega)
      rw [exec_of_operandCheck (operandCheck_of_lt (by omega) i)]
      simp only [PortWord.stimulus, present, hcheck]

/-- Settles O26: the stimulus of a port word that decodes is a transaction, and `present` runs it. -/
theorem stepRunsTheDecodedOperation : Obligations.StepRunsTheDecodedOperation := by
  refine ⟨fun s w rest i hs h => ?_, fun s nbits w i h => ?_⟩
  · rw [step_eq_present hs]; exact present_stimulus_of_decode h
  · exact present_stimulus_of_decode h

/-! ## The configuration, the rest of the inputs, and the registers at PIPE = 0 -/

theorem present_frame {st : Stimulus} {s t : State} (h : present st s = .next t) :
    t.cfg = s.cfg ∧ t.pending = s.pending := by
  obtain ⟨e, p, n, -, rfl⟩ | ⟨d, q, n, -, rfl⟩ | ⟨e, d, p, q, n, -, -, rfl⟩ | ⟨c, pos, -, rfl⟩ := present_eq_next h
  · simp
  · simp
  · simp
  · simp

theorem step_frame {s t : State} {st : Stimulus} {rest : List Stimulus} (hs : s.pending = st :: rest)
    (h : step s = .next t) : t.cfg = s.cfg ∧ t.pending = rest :=
  present_frame ((step_eq_present hs).symm.trans h)

/-- Settles O34: ports, edges and FLIP calls leave the configuration alone. -/
theorem configurationNeverChanges : Obligations.ConfigurationNeverChanges := by
  intro s t h
  obtain ⟨st, rest, hs, -⟩ := step_eq_next.mp h
  exact (step_frame hs h).1

theorem present_encoder_registers_of_comb {st : Stimulus} {s t : State} (h : present st s = .next t)
    (h0 : s.cfg.encPIPE = 0) : t.encV = s.encV ∧ t.encCode = s.encCode := by
  obtain ⟨e, p, n, -, rfl⟩ | ⟨d, q, n, -, rfl⟩ | ⟨e, d, p, q, n, -, -, rfl⟩ | ⟨c, pos, -, rfl⟩ := present_eq_next h
  · simp [State.encoderEdge_comb, h0]
  · simp
  · simp [State.encoderEdge_comb, h0]
  · simp

theorem present_decoder_registers_of_comb {st : Stimulus} {s t : State} (h : present st s = .next t)
    (h0 : s.cfg.decPIPE = 0) :
    t.decV = s.decV ∧ t.decData = s.decData ∧ t.decCorr = s.decCorr ∧ t.decSyn = s.decSyn := by
  obtain ⟨e, p, n, -, rfl⟩ | ⟨d, q, n, -, rfl⟩ | ⟨e, d, p, q, n, -, -, rfl⟩ | ⟨c, pos, -, rfl⟩ := present_eq_next h
  · simp
  · simp [State.decoderEdge_comb, h0]
  · simp [State.decoderEdge_comb, h0]
  · simp

/-- Settles O35: at PIPE = 0 an edge is the identity, and the outputs read the ports alone. -/
theorem pipeZeroHasNoState : Obligations.PipeZeroHasNoState := by
  refine ⟨fun s t h => ?_, fun s t hcfg h0 hpins => ?_, fun s t hcfg h0 hvalid hcode => ?_⟩
  · obtain ⟨st, rest, hs, hp⟩ := step_eq_next.mp h
    exact ⟨present_encoder_registers_of_comb (s := s.setPending rest) hp,
      present_decoder_registers_of_comb (s := s.setPending rest) hp⟩
  · simp [State.encOutValid, State.codeOut, ← hcfg, h0, hpins]
  · simp [State.decOutValid, State.decOut, ← hcfg, h0, hvalid, hcode]

end Sys2Proof.Machine
end

section
/-! The invariant (R9, R20, R21, R37): every part of a step keeps it, and it holds after reset and at power-up. -/

namespace Sys2Proof.Machine

theorem inv_withInputs {s : State} (h : s.Inv) {e : EncDrive} {d : DecDrive} {p : EncPins} {q : DecPins} (n : Nat)
    (hp : p = s.encPins ∨ EncLevels s.cfg e p) (hq : q = s.decPins ∨ DecLevels s.cfg d q) :
    (s.withInputs p q n).Inv := by
  obtain ⟨hc, hdata, hfits, hcode, hdec, hsyn, htb, hrstE, hrstD⟩ := h
  have hE : p.dataIn.length = s.cfg.K ∧ (s.cfg.encPIPE = 0 → p.rst = false) := by
    obtain rfl | hp := hp
    · exact ⟨hdata, hrstE⟩
    · exact ⟨hp.length_eq, hp.rst_eq_false_of_comb⟩
  have hD : q.fits s.cfg = true ∧ (s.cfg.decPIPE = 0 → q.rst = false) := by
    obtain rfl | hq := hq
    · exact ⟨hfits, State.decRst_eq s ▸ hrstD⟩
    · exact ⟨hq.fits, readRst_eq_ok hq.rst_eq⟩
  exact ⟨hc, hE.1, hD.1, hcode, hdec, hsyn, htb, hE.2, (State.decRst_eq _).symm ▸ hD.2⟩

theorem inv_encoderEdge {s : State} (h : s.Inv) : s.encoderEdge.Inv := by
  have ⟨hc, hdata, hfits, _, hdec, hsyn, htb, hrstE, hrstD⟩ := h
  unfold State.encoderEdge
  split_ifs
  · exact h
  · exact h
  · exact ⟨hc, hdata, hfits, enc_length _ _, hdec, hsyn, htb, hrstE, hrstD⟩
  · exact h

theorem inv_decoderEdge {s : State} (h : s.Inv) : s.decoderEdge.Inv := by
  have ⟨hc, hdata, hfits, hcode, _, _, htb, hrstE, hrstD⟩ := h
  unfold State.decoderEdge
  split_ifs
  · exact h
  · exact h
  · exact ⟨hc, hdata, hfits, hcode, extract_length _ _, syndromeBits_length _ _, htb, hrstE, hrstD⟩
  · exact h

theorem inv_clockEdge {s : State} (h : s.Inv) : s.clockEdge.Inv := by
  rw [State.clockEdge_eq]; exact inv_encoderEdge (inv_decoderEdge h)

theorem inv_setTbOut {s : State} {v : Bits} (h : s.Inv) (hv : v.length = s.cfg.N) : (s.setTbOut v).Inv := by
  obtain ⟨hc, hdata, hfits, hcode, hdec, hsyn, -, hrstE, hrstD⟩ := h
  exact ⟨hc, hdata, hfits, hcode, hdec, hsyn, hv, hrstE, hrstD⟩

theorem present_keeps_inv {st : Stimulus} {s t : State} (hinv : s.Inv) (h : present st s = .next t) : t.Inv := by
  obtain ⟨e, p, n, hp, rfl⟩ | ⟨d, q, n, hq, rfl⟩ | ⟨e, d, p, q, n, hp, hq, rfl⟩ | ⟨c, pos, hc, rfl⟩ :=
    present_eq_next h
  · exact inv_encoderEdge (inv_withInputs (d := .linked .zero none) hinv n (.inr hp) (.inl rfl))
  · exact inv_decoderEdge (inv_withInputs (e := lineEnc []) hinv n (.inl rfl) (.inr hq))
  · exact inv_clockEdge (inv_withInputs hinv n (.inr hp) (.inr hq))
  · exact inv_setTbOut hinv (flipBit_length hc)

/-- Settles O36: what is put on the ports has the ports' widths, and an edge loads registers with ENC and DEC, which
have the registers' widths. -/
theorem everyStepKeepsTheInvariant : Obligations.EveryStepKeepsTheInvariant := by
  intro s t hinv h
  obtain ⟨st, rest, -, hp⟩ := step_eq_next.mp h
  exact present_keeps_inv (s := s.setPending rest) hinv hp

theorem inv_resetOf {c : Config} (hc : c.Legal) : (State.resetOf c).Inv :=
  ⟨hc, drawBits_length _ _, beq_iff_eq.mpr (drawBits_length _ _), drawBits_length _ _, drawBits_length _ _,
    drawBits_length _ _, drawBits_length _ _, fun _ => rfl, fun _ => rfl⟩

theorem inv_powerUp {c : Config} (hc : c.Legal) : (State.powerUp c).Inv :=
  ⟨hc, drawBits_length _ _, beq_iff_eq.mpr (drawBits_length _ _), drawBits_length _ _, drawBits_length _ _,
    drawBits_length _ _, drawBits_length _ _, fun _ => rfl, fun _ => rfl⟩

/-- Settles O37: the free values are drawn at the widths of their registers and ports. -/
theorem invariantHoldsAfterReset : Obligations.InvariantHoldsAfterReset :=
  ⟨inv_resetOf (by decide), fun _ hc => ⟨inv_resetOf hc, inv_powerUp hc⟩⟩

theorem encObserved_eq_none {s : State} (h : s.cfg.encPIPE = 1) (hv : s.encV = false) : s.encObserved = none := by
  simp [State.encObserved, State.encOutValid, h, hv]

theorem decObserved_eq_none {s : State} (h : s.cfg.decPIPE = 1) (hv : s.decV = false) : s.decObserved = none := by
  simp [State.decObserved, State.decOutValid, h, hv]

/-- Settles O38: at PIPE = 1 `out_valid` is the valid register. -/
theorem resetClearsTheValidRegisters : Obligations.ResetClearsTheValidRegisters :=
  fun _ => ⟨rfl, rfl, fun h => encObserved_eq_none h rfl, fun h => decObserved_eq_none h rfl⟩

end Sys2Proof.Machine
end

section
/-! Progress (R66): a legal input always steps, so a list of legal inputs runs to its end. -/

namespace Sys2Proof.Machine

theorem exists_step_of_legal {s : State} {st : Stimulus} {rest : List Stimulus} (hc : s.cfg.Legal)
    (hs : s.pending = st :: rest) (hst : st.legal s.cfg = true) : ∃ t, step s = .next t := by
  cases st with
  | encoder e =>
    obtain ⟨p, n, -, hstep⟩ := step_encoder_of_legal hc hst hs
    exact ⟨_, hstep⟩
  | decoder d =>
    obtain ⟨q, n, -, hstep⟩ := step_decoder_of_legal hc hst hs
    exact ⟨_, hstep⟩
  | both e d =>
    obtain ⟨he, hd⟩ := Bool.and_eq_true_iff.mp hst
    obtain ⟨p, q, n, -, -, hstep⟩ := step_both_of_legal hc he hd hs
    exact ⟨_, hstep⟩
  | testbench v pos =>
    simp only [Stimulus.legal, Bool.and_eq_true, beq_iff_eq, decide_eq_true_iff, and_assoc] at hst
    obtain ⟨hw, hbits, h1, h2⟩ := hst
    obtain ⟨c, hread⟩ := exists_readVector_of_twoValued (port := .flipOperand) hw hbits
    have hdecode : decodeWord s.cfg.R (.testbenchCall v pos) = .ok (.flip c pos) :=
      decodeWord_testbenchCall.mpr ⟨c, rfl, hread⟩
    have hlen : c.length = s.cfg.N := (readVector_eq_ok.mp hread).1
    exact ⟨_, (step_eq_present hs).trans <|
      (present_testbench_of_decode (s := s.setPending rest) hc.two_le_R hdecode).trans <|
      exec_flip_of_inRange (s := s.setPending rest) hc.two_le_R hlen h1 h2⟩

/-- Settles O50: legal inputs are read, so the ports are driven and the edge follows; the step keeps the configuration,
the rest of the inputs and the invariant. -/
theorem legalInputStepsAndKeepsTheInvariant : Obligations.LegalInputStepsAndKeepsTheInvariant := by
  intro s st rest hc hs hst
  obtain ⟨t, ht⟩ := exists_step_of_legal hc hs hst
  obtain ⟨hcfg, hpending⟩ := step_frame hs ht
  exact ⟨t, ht, hcfg, hcfg ▸ hc, hpending, fun hinv => everyStepKeepsTheInvariant s t hinv ht⟩

theorem run_succ_of_step {s t : State} (k : Nat) (h : step s = .next t) : core.run (k + 1) s = core.run k t := by
  have hcore : core.step s = .next t := h
  simp only [Host.Core.run, hcore]

theorem run_of_legal {l : List Stimulus} {s : State} (hs : s.pending = l) (hc : s.cfg.Legal)
    (hl : ∀ st ∈ l, st.legal s.cfg = true) :
    ∃ t : State, core.run l.length s = .next t ∧ t.pending = [] ∧ t.cfg = s.cfg := by
  induction l generalizing s with
  | nil => exact ⟨s, rfl, hs, rfl⟩
  | cons st rest ih =>
    obtain ⟨hst, hrest⟩ := List.forall_mem_cons.mp hl
    obtain ⟨u, hu, hcfg, -, hpending, -⟩ := legalInputStepsAndKeepsTheInvariant s st rest hc hs hst
    obtain ⟨t, ht, hnil, htcfg⟩ := ih hpending (hcfg ▸ hc) (hcfg ▸ hrest)
    exact ⟨t, (run_succ_of_step rest.length hu).trans ht, hnil, htcfg.trans hcfg⟩

/-- Settles O39, by induction on the inputs still to come. -/
theorem legalInputsAlwaysRun : Obligations.LegalInputsAlwaysRun := fun _ hc hl => run_of_legal rfl hc hl

end Sys2Proof.Machine
end

section
/-! Faults (R62, R66): the testbench's FLIP position is all that faults. -/

namespace Sys2Proof.Machine

theorem execFlip_eq_fault {c : Bits} {pos : Nat} {s : State} {f : Fault} (h : execFlip c pos s = .fault f) :
    checkPosition s.cfg.R pos = some f := by
  unfold execFlip at h
  split at h
  · cases h
  · split at h
    · rename_i hf
      cases h
      exact hf
    · cases h

theorem present_eq_fault {st : Stimulus} {s : State} {f : Fault} (h : present st s = .fault f) :
    ∃ pos, st.callsFlip pos = true ∧ checkPosition s.cfg.R pos = some f := by
  cases st with
  | encoder e =>
    rw [present_encoder, andThen_eq_fault] at h
    obtain hdrive | ⟨u, -, hedge⟩ := h
    · exact absurd hdrive driveEncoderPorts_ne_fault
    · cases hedge
  | decoder d =>
    rw [present_decoder, andThen_eq_fault] at h
    obtain hdrive | ⟨u, -, hedge⟩ := h
    · obtain ⟨rst, pos, rfl, hf⟩ := driveDecoderPorts_fault hdrive
      exact ⟨pos, by simp [Stimulus.callsFlip], hf⟩
    · cases hedge
  | both e d =>
    rw [present_both, andThen_eq_fault] at h
    obtain hdrive | ⟨u, hu, h⟩ := h
    · exact absurd hdrive driveEncoderPorts_ne_fault
    · obtain hdrive | ⟨v, -, hedge⟩ := andThen_eq_fault.mp h
      · obtain ⟨rst, pos, rfl, hf⟩ := driveDecoderPorts_fault hdrive
        rw [(driveEncoderPorts_frame hu).1] at hf
        exact ⟨pos, by simp [Stimulus.callsFlip], hf⟩
      · cases hedge
  | testbench v pos =>
    simp only [present] at h
    split at h
    · cases h
    · split at h
      · rename_i hi
        obtain ⟨c, rfl, -⟩ := decodeWord_testbenchCall.mp hi
        exact ⟨pos, by simp [Stimulus.callsFlip], execFlip_eq_fault h⟩
      · cases h

/-- Settles O40: only FLIP's position check faults, in a call and on the link wire. -/
theorem onlyTheTestbenchFaults : Obligations.OnlyTheTestbenchFaults := by
  intro s f h
  cases hs : s.pending with
  | nil => simp [step, hs] at h
  | cons st rest =>
    rw [step_eq_present hs] at h
    obtain ⟨pos, hcalls, hf⟩ := present_eq_fault h
    obtain ⟨hout, rfl⟩ := checkPosition_eq_some.mp hf
    exact ⟨st, rest, pos, rfl, hcalls, hout, rfl⟩

end Sys2Proof.Machine
end

section
/-! Refusals for X and Z on a sampled input (R39), alone and on a shared stimulus. -/

namespace Sys2Proof.Machine

section
variable {s : State} {rest : List Stimulus} (hc : s.cfg.Legal)
include hc

theorem step_of_nonBinary_encoder {e : EncDrive} {port : Port} (hw : e.dataIn.length = s.cfg.K)
    (hport : e.nonBinaryPort s.cfg = some port)
    (hs : s.pending = .encoder e :: rest ∨ ∃ d, s.pending = .both e d :: rest) :
    step s = .refused (.invalidBitValue port) := by
  have hdrive := driveEncoderPorts_of_nonBinary (s := s.setPending rest) hc hw hport
  obtain hs | ⟨d, hs⟩ := hs
  · rw [step_eq_present hs, present_encoder, hdrive, andThen_refused]
  · rw [step_eq_present hs, present_both, hdrive, andThen_refused]

theorem step_of_nonBinary_decoder {d : DecDrive} {port : Port} (hw : d.widthFits s.cfg = true)
    (hport : d.nonBinaryPort s.cfg = some port)
    (hs : s.pending = .decoder d :: rest ∨
      ∃ e, EncDrive.legal s.cfg e = true ∧ s.pending = .both e d :: rest) :
    step s = .refused (.invalidBitValue port) := by
  obtain hs | ⟨e, he, hs⟩ := hs
  · rw [step_eq_present hs, present_decoder,
      driveDecoderPorts_of_nonBinary (s := s.setPending rest) hc hw hport, andThen_refused]
  · obtain ⟨p, n, -, hdrive⟩ := driveEncoderPorts_of_legal (s := s.setPending rest) hc he
    rw [step_eq_present hs, present_both, hdrive, andThen_next,
      driveDecoderPorts_of_nonBinary (s := (s.setPending rest).withInputs p _ n) hc hw hport,
      andThen_refused]

theorem step_of_nonBinary_flip {v : LogicVec} {pos : Nat} (hw : v.length = s.cfg.N)
    (hv : v.all Logic.twoValued = false) (hs : s.pending = .testbench v pos :: rest) :
    step s = .refused (.invalidBitValue .flipOperand) := by
  have hdecode : decodeWord s.cfg.R (.testbenchCall v pos) = .error (.invalidBitValue .flipOperand) := by
    simp only [decodeWord, readVector_of_not_twoValued hw hv, Except.map]
  rw [step_eq_present hs, present_testbench_of_decode_error (s := s.setPending rest) hc.two_le_R hdecode, decodeRefusal]

end

/-- Settles O53: the ports are read before anything else is done, the encoder's first. -/
theorem nonBinaryInputsAreRefusedInEveryForm : Obligations.NonBinaryInputsAreRefusedInEveryForm :=
  ⟨fun _ _ _ _ hc hw hport hs => step_of_nonBinary_encoder hc hw hport hs,
    fun _ _ _ _ hc hw hport hs => step_of_nonBinary_decoder hc hw hport hs,
    fun _ _ _ _ hc hw hv hs => step_of_nonBinary_flip hc hw hv hs⟩

section
variable {P : Nat} {port : Port} {rst inValid : Logic} {v : LogicVec}

theorem nonBinaryPort_of_rst (hP : P = 1) (h : rst.twoValued = false) :
    nonBinaryPort P port rst inValid v = some .rst := by
  simp [nonBinaryPort, hP, h]

theorem not_nonBinary_rst (hr : rst.twoValued = true ∨ P = 0) : ¬(P ≠ 0 ∧ rst.twoValued = false) := by
  rintro ⟨hP, hrst⟩
  exact hr.elim (fun h => by simp [h] at hrst) hP

theorem nonBinaryPort_of_inValid (hr : rst.twoValued = true ∨ P = 0) (h : inValid.twoValued = false) :
    nonBinaryPort P port rst inValid v = some .inValid := by
  rw [nonBinaryPort, if_neg (not_nonBinary_rst hr), if_pos h]

theorem nonBinaryPort_of_vector (hr : rst.twoValued = true ∨ P = 0) (h1 : inValid = .one)
    (h : v.all Logic.twoValued = false) : nonBinaryPort P port rst inValid v = some port := by
  subst h1
  rw [nonBinaryPort, if_neg (not_nonBinary_rst hr), if_neg (by decide), if_pos ⟨rfl, h⟩]

theorem nonBinaryPort_of_idle (hr : rst.twoValued = true ∨ P = 0) (h0 : inValid = .zero) :
    nonBinaryPort P port rst inValid v = none := by
  subst h0
  rw [nonBinaryPort, if_neg (not_nonBinary_rst hr), if_neg (by decide), if_neg (by simp)]

end

/-- Settles O41: a unit driven alone is refused for the port that `nonBinaryPort` names, and it names none where the
input is idle. -/
theorem nonBinaryInputsAreRefused : Obligations.NonBinaryInputsAreRefused := by
  refine ⟨fun s e rest hc hs hw => ?_, fun s rst inValid v rest hc hs hw => ?_⟩
  · have hrefused : ∀ port, e.nonBinaryPort s.cfg = some port → step s = .refused (.invalidBitValue port) :=
      fun port hport => step_of_nonBinary_encoder hc hw hport (.inl hs)
    exact ⟨fun hr h1 hv => hrefused _ (nonBinaryPort_of_vector hr h1 hv),
      fun hP hr => hrefused _ (nonBinaryPort_of_rst hP hr),
      fun _ hr hi => hrefused _ (nonBinaryPort_of_inValid (.inl hr) hi),
      fun hr h0 => exists_step_of_legal hc hs ((legalPorts_iff .dataIn).mpr ⟨hw, nonBinaryPort_of_idle hr h0⟩)⟩
  · have hrefused : ∀ port, DecDrive.nonBinaryPort s.cfg (.ports rst inValid v) = some port →
        step s = .refused (.invalidBitValue port) :=
      fun port hport => step_of_nonBinary_decoder (d := .ports rst inValid v) hc (beq_iff_eq.mpr hw) hport (.inl hs)
    exact ⟨fun hr h1 hv => hrefused _ (nonBinaryPort_of_vector hr h1 hv),
      fun hP hr => hrefused _ (nonBinaryPort_of_rst hP hr),
      fun _ hr hi => hrefused _ (nonBinaryPort_of_inValid (.inl hr) hi),
      fun hr h0 => exists_step_of_legal hc hs ((legalPorts_iff .codeIn).mpr ⟨hw, nonBinaryPort_of_idle hr h0⟩)⟩

end Sys2Proof.Machine
end

section
/-! Unspecified values (R23, R78): every part of a step respects "alike up to unspecified values", and an edge that
resets every registered unit makes any two states alike. -/

namespace Sys2Proof.Machine

/-- Levels on the encoder's ports that differ at most in an unsampled vector. -/
def sameLevels (p p' : EncPins) : Prop :=
  p.rst = p'.rst ∧ p.inValid = p'.inValid ∧ (p.inValid = true → p.dataIn = p'.dataIn)

/-! ## Outputs, and what the decoder samples -/

section
variable {s t : State}

theorem same_encOutputs (h : s.sameUpToUnspecified t) :
    s.encOutValid = t.encOutValid ∧ (s.encOutValid = true → s.codeOut = t.codeOut) := by
  obtain ⟨hcfg, -, ⟨-, hvalid, hdata, hregs⟩, -⟩ := h
  unfold State.encOutValid State.codeOut
  rw [← hcfg]
  split_ifs with h0
  · exact ⟨hvalid, fun hv => by rw [hdata hv]⟩
  · exact hregs h0

theorem encObserved_same (h : s.sameUpToUnspecified t) : s.encObserved = t.encObserved := by
  obtain ⟨hvalid, hcode⟩ := same_encOutputs h
  unfold State.encObserved
  rw [← hvalid]
  split_ifs with hv
  · rw [hcode hv]
  · rfl

theorem same_decInputs (h : s.sameUpToUnspecified t) :
    s.decRst = t.decRst ∧ s.decInValid = t.decInValid ∧ (s.decInValid = true → s.codeIn = t.codeIn) := by
  obtain ⟨hvalid, hcode⟩ := same_encOutputs h
  obtain ⟨hcfg, -, -, hpins, -⟩ := h
  unfold State.decRst State.decInValid State.codeIn
  cases hs : s.decPins with
  | driven rst v c =>
    cases ht : t.decPins with
    | driven rst' v' c' => simpa [hs, ht, DecPins.same] using hpins
    | linked rst' f' => simp [hs, ht, DecPins.same] at hpins
  | linked rst f =>
    cases ht : t.decPins with
    | driven rst' v' c' => simp [hs, ht, DecPins.same] at hpins
    | linked rst' f' =>
      obtain ⟨rfl, rfl⟩ : rst = rst' ∧ f = f' := by simpa [hs, ht, DecPins.same] using hpins
      refine ⟨rfl, hvalid, fun hv => ?_⟩
      cases f with
      | none => exact hcode hv
      | some pos => exact congrArg₂ (flipBit · · pos) (congrArg Config.R hcfg) (hcode hv)

theorem decObserved_same (h : s.sameUpToUnspecified t) : s.decObserved = t.decObserved := by
  obtain ⟨-, hvalid, hcode⟩ := same_decInputs h
  obtain ⟨hcfg, -, -, -, hregs⟩ := h
  unfold State.decObserved State.decOutValid State.decOut
  rw [← hcfg]
  by_cases h0 : s.cfg.decPIPE = 0
  · simp only [h0, if_true, ← hvalid]
    split_ifs with hv
    · rw [hcode hv]
    · rfl
  · obtain ⟨hv, hdata⟩ := hregs h0
    simp only [h0, if_false, ← hv]
    split_ifs with hd
    · obtain ⟨hdata, hcorr, hsyn⟩ := hdata hd
      rw [hdata, hcorr, hsyn]
    · rfl

/-! ## Edges -/

theorem encoderEdge_same (h : s.sameUpToUnspecified t) : s.encoderEdge.sameUpToUnspecified t.encoderEdge := by
  have ⟨hcfg, hpending, ⟨hrst, hvalid, hdata, _⟩, hdec⟩ := h
  unfold State.encoderEdge
  rw [← hcfg, ← hrst, ← hvalid]
  split_ifs with h0 hr hv
  · exact h
  · exact ⟨rfl, hpending, ⟨hrst, hvalid, hdata, fun _ => ⟨rfl, fun hf => by cases hf⟩⟩, hdec⟩
  · refine ⟨rfl, hpending, ⟨hrst, hvalid, hdata, fun _ => ⟨rfl, fun _ => ?_⟩⟩, hdec⟩
    exact congrArg (enc s.cfg.R) (hdata hv)
  · exact ⟨rfl, hpending, ⟨hrst, hvalid, hdata, fun _ => ⟨rfl, fun hf => by cases hf⟩⟩, hdec⟩

theorem decoderEdge_same (h : s.sameUpToUnspecified t) : s.decoderEdge.sameUpToUnspecified t.decoderEdge := by
  have ⟨hcfg, hpending, henc, hpins, _⟩ := h
  obtain ⟨hrst, hvalid, hcode⟩ := same_decInputs h
  unfold State.decoderEdge
  rw [← hcfg, ← hrst, ← hvalid]
  split_ifs with h0 hr hv
  · exact h
  · exact ⟨rfl, hpending, henc, hpins, fun _ => ⟨rfl, fun hf => by cases hf⟩⟩
  · rw [hcode hv]
    exact ⟨hcfg, hpending, henc, hpins, fun _ => ⟨rfl, fun _ => ⟨rfl, rfl, rfl⟩⟩⟩
  · exact ⟨rfl, hpending, henc, hpins, fun _ => ⟨rfl, fun hf => by cases hf⟩⟩

theorem clockEdge_same (h : s.sameUpToUnspecified t) : s.clockEdge.sameUpToUnspecified t.clockEdge := by
  rw [State.clockEdge_eq, State.clockEdge_eq]
  exact encoderEdge_same (decoderEdge_same h)

/-! ## Driving the ports -/

theorem sameOutcome_andThen {o o' : Host.Outcome State Fault Refusal}
    {f g : State → Host.Outcome State Fault Refusal} (ho : sameOutcome o o')
    (hf : ∀ u v, u.sameUpToUnspecified v → sameOutcome (f u) (g v)) : sameOutcome (andThen o f) (andThen o' g) := by
  cases o with
  | next u =>
    cases o' with
    | next v => exact hf u v ho
    | fault _ => cases ho
    | refused _ => cases ho
  | fault r =>
    cases o' with
    | next _ => cases ho
    | fault r' => exact ho
    | refused _ => cases ho
  | refused r =>
    cases o' with
    | next _ => cases ho
    | fault _ => cases ho
    | refused r' => exact ho

theorem sameUpToUnspecified_withEncPins (h : s.sameUpToUnspecified t) {p p' : EncPins} (hp : sameLevels p p')
    (n n' : Nat) : (s.withInputs p s.decPins n).sameUpToUnspecified (t.withInputs p' t.decPins n') := by
  obtain ⟨hcfg, hpending, ⟨-, -, -, hregs⟩, hdec⟩ := h
  obtain ⟨hrst, hvalid, hdata⟩ := hp
  exact ⟨hcfg, hpending, ⟨hrst, hvalid, hdata, hregs⟩, hdec⟩

theorem sameUpToUnspecified_withDecPins (h : s.sameUpToUnspecified t) {q q' : DecPins} (hq : q.same q')
    (n n' : Nat) : (s.withInputs s.encPins q n).sameUpToUnspecified (t.withInputs t.encPins q' n') := by
  obtain ⟨hcfg, hpending, henc, -, hregs⟩ := h
  exact ⟨hcfg, hpending, henc, hq, hregs⟩

theorem driveEncoderPorts_same (e : EncDrive) (h : s.sameUpToUnspecified t) :
    sameOutcome (driveEncoderPorts e s) (driveEncoderPorts e t) := by
  have hcfg : s.cfg = t.cfg := h.1
  cases hs : checkEncoder s.cfg e.dataIn.length with
  | some r =>
    have ht : checkEncoder t.cfg e.dataIn.length = some r := hcfg ▸ hs
    simp [driveEncoderPorts, hs, ht, sameOutcome]
  | none =>
    rw [driveEncoderPorts_eq_ofRead hs, driveEncoderPorts_eq_ofRead (hcfg ▸ hs), ← hcfg]
    obtain ⟨r, hl, hl'⟩ | ⟨l, l', hl, hl', hrst, hvalid, hdata⟩ := readPorts_draws (draws := s.draws) t.draws
    · rw [hl, hl']; rfl
    · rw [hl, hl']; exact sameUpToUnspecified_withEncPins h ⟨hrst, hvalid, hdata⟩ _ _

theorem driveDecoderPorts_same (d : DecDrive) (h : s.sameUpToUnspecified t) :
    sameOutcome (driveDecoderPorts d s) (driveDecoderPorts d t) := by
  have hcfg : s.cfg = t.cfg := h.1
  cases d with
  | ports rst inValid v =>
    cases hs : checkDecoder s.cfg v.length with
    | some r =>
      have ht : checkDecoder t.cfg v.length = some r := hcfg ▸ hs
      simp [driveDecoderPorts, hs, ht, sameOutcome]
    | none =>
      rw [driveDecoderPorts_eq_ofRead hs, driveDecoderPorts_eq_ofRead (hcfg ▸ hs), ← hcfg]
      obtain ⟨r, hl, hl'⟩ | ⟨l, l', hl, hl', hrst, hvalid, hdata⟩ := readPorts_draws (draws := s.draws) t.draws
      · rw [hl, hl']; rfl
      · rw [hl, hl']
        exact sameUpToUnspecified_withDecPins (q := .driven _ _ _) (q' := .driven _ _ _) h ⟨hrst, hvalid, hdata⟩ _ _
  | linked rst flipAt =>
    simp only [driveDecoderPorts]
    rw [← hcfg]
    split
    · rfl
    · split
      · rfl
      · split
        · rfl
        · exact sameUpToUnspecified_withDecPins (q := .linked _ _) (q' := .linked _ _) h ⟨rfl, rfl⟩ s.draws t.draws

theorem execFlip_same (c : Bits) (pos : Nat) (h : s.sameUpToUnspecified t) :
    sameOutcome (execFlip c pos s) (execFlip c pos t) := by
  have hcfg : s.cfg = t.cfg := h.1
  simp only [execFlip, ← hcfg]
  split
  · rfl
  · split
    · rfl
    · exact h

theorem present_same (st : Stimulus) (h : s.sameUpToUnspecified t) :
    sameOutcome (present st s) (present st t) := by
  cases st with
  | encoder e =>
    rw [present_encoder, present_encoder]
    exact sameOutcome_andThen (driveEncoderPorts_same e h) fun _ _ => encoderEdge_same
  | decoder d =>
    rw [present_decoder, present_decoder]
    exact sameOutcome_andThen (driveDecoderPorts_same d h) fun _ _ => decoderEdge_same
  | both e d =>
    exact sameOutcome_andThen (driveEncoderPorts_same e h) fun _ _ hu =>
      sameOutcome_andThen (driveDecoderPorts_same d hu) fun _ _ => clockEdge_same
  | testbench v pos =>
    have hcfg : s.cfg = t.cfg := h.1
    simp only [present, ← hcfg]
    split
    · rfl
    · split
      · rename_i hi
        obtain ⟨c, rfl, -⟩ := decodeWord_testbenchCall.mp hi
        exact execFlip_same c pos h
      · rfl

theorem step_same (h : s.sameUpToUnspecified t) : sameOutcome (step s) (step t) := by
  have ⟨hcfg, hpending, henc, hdec⟩ := h
  cases hs : s.pending with
  | nil =>
    have ht : t.pending = [] := hpending ▸ hs
    simp [step, hs, ht, sameOutcome]
  | cons st rest =>
    rw [step_eq_present hs, step_eq_present (hpending ▸ hs)]
    exact present_same st ⟨hcfg, rfl, henc, hdec⟩

end

/-! ## A reset edge -/

/-- What the wires carry determines the levels, but for an unsampled vector. -/
theorem sameLevels_of_levelsRead {P w : Nat} {rst inValid : Logic} {v : LogicVec} {l l' : EncPins}
    (h : LevelsRead P w rst inValid v l) (h' : LevelsRead P w rst inValid v l') : sameLevels l l' := by
  have hvalid : l.inValid = l'.inValid := Option.some.inj (h.inValid_eq.symm.trans h'.inValid_eq)
  refine ⟨Except.ok.inj (h.rst_eq.symm.trans h'.rst_eq), hvalid, fun hv => ?_⟩
  exact ofBits_injective ((h.vector_eq hv).symm.trans (h'.vector_eq (hvalid ▸ hv)))

theorem same_of_decLevels {c : Config} {d : DecDrive} {q q' : DecPins} (h : DecLevels c d q)
    (h' : DecLevels c d q') : q.same q' := by
  cases h with
  | driven h =>
    cases h' with
    | driven h' => exact sameLevels_of_levelsRead h h'
  | linked hrst _ =>
    cases h' with
    | linked hrst' _ => exact ⟨Except.ok.inj (hrst.symm.trans hrst'), rfl⟩

theorem sameEncoder_of_reset {s t : State} (hcfg : s.cfg = t.cfg) (hpins : sameLevels s.encPins t.encPins)
    (hreset : s.cfg.encPIPE ≠ 0 → s.cfg.encPIPE = 1 ∧ s.encPins.rst = true) :
    s.clockEdge.sameEncoder t.clockEdge := by
  obtain ⟨hrst, hvalid, hdata⟩ := hpins
  refine ⟨by simpa, by simpa, by simpa, fun h0 => ?_⟩
  obtain ⟨h1, hr⟩ := hreset (by simpa using h0)
  have hs : s.clockEdge.encV = false := (State.encoderEdge_cleared h1 (.inl hr)).1
  have ht : t.clockEdge.encV = false := (State.encoderEdge_cleared (hcfg ▸ h1) (.inl (hrst ▸ hr))).1
  exact ⟨hs.trans ht.symm, fun hv => by rw [hs] at hv; cases hv⟩

theorem sameDecoder_of_reset {s t : State} (hcfg : s.cfg = t.cfg) (hpins : s.decPins.same t.decPins)
    (hreset : s.cfg.decPIPE ≠ 0 → s.cfg.decPIPE = 1 ∧ s.decRst = true ∧ t.decRst = true) :
    s.clockEdge.sameDecoder t.clockEdge := by
  refine ⟨by simpa, fun h0 => ?_⟩
  obtain ⟨h1, hr, hr'⟩ := hreset (by simpa using h0)
  have hs : s.clockEdge.decV = false := (State.decoderEdge_cleared h1 (.inl hr)).1
  have ht : t.clockEdge.decV = false := (State.decoderEdge_cleared (hcfg ▸ h1) (.inl hr')).1
  exact ⟨hs.trans ht.symm, fun hv => by rw [hs] at hv; cases hv⟩

/-- Settles O44: each part of a step reads a data register only behind its valid register, and a vector only behind its
`in_valid`; a reset edge makes the valid registers 0 whatever they were. -/
theorem unspecifiedValuesAreNeverObserved : Obligations.UnspecifiedValuesAreNeverObserved := by
  refine ⟨fun s t _ h => ⟨encObserved_same h, decObserved_same h, step_same h⟩, ?_⟩
  intro s t e d rest hc hcfg he hd hresetE hresetD hs ht
  obtain ⟨p, q, n, hp, hq, hstep⟩ := step_both_of_legal hc he hd hs
  obtain ⟨p', q', n', hp', hq', hstep'⟩ := step_both_of_legal (hcfg ▸ hc) (hcfg ▸ he) (hcfg ▸ hd) ht
  rw [← hcfg] at hp' hq'
  refine ⟨_, _, hstep, hstep', by simpa, by simp, ?_, ?_⟩
  · refine sameEncoder_of_reset hcfg (sameLevels_of_levelsRead hp hp') fun h0 => ?_
    have h1 : s.cfg.encPIPE = 1 := hc.encPIPE_eq.resolve_left h0
    exact ⟨h1, hp.rst_eq_true h1 (hresetE h1)⟩
  · refine sameDecoder_of_reset hcfg (same_of_decLevels hq hq') fun h0 => ?_
    have h1 : s.cfg.decPIPE = 1 := hc.decPIPE_eq.resolve_left h0
    rw [State.decRst_eq, State.decRst_eq]
    exact ⟨h1, hq.rst_eq_true h1 (hresetD h1), hq'.rst_eq_true h1 (hresetD h1)⟩

end Sys2Proof.Machine
end

section
/-! What an edge does to each unit (R19, R22): it accepts a transaction, or it leaves the unit quiet (idle or reset). -/

namespace Sys2Proof.Machine

variable {s : State}

/-! ## The encoder -/

theorem State.encOutValid_comb (h0 : s.cfg.encPIPE = 0) : s.encOutValid = s.encPins.inValid := if_pos h0

theorem State.encOutValid_reg (h1 : s.cfg.encPIPE = 1) : s.encOutValid = s.encV := by
  simp [State.encOutValid, h1]

theorem State.codeOut_comb (h0 : s.cfg.encPIPE = 0) : s.codeOut = enc s.cfg.R s.encPins.dataIn := if_pos h0

theorem State.codeOut_reg (h1 : s.cfg.encPIPE = 1) : s.codeOut = s.encCode := by
  simp [State.codeOut, h1]

theorem State.encObserved_of_valid (h : s.encOutValid = true) : s.encObserved = some s.codeOut := if_pos h

theorem State.encObserved_of_not_valid (h : s.encOutValid = false) : s.encObserved = none := by
  simp [State.encObserved, h]

theorem State.encoderEdge_loaded (h1 : s.cfg.encPIPE = 1) (hrst : s.encPins.rst = false)
    (hvalid : s.encPins.inValid = true) : s.encoderEdge.encoderLoaded (enc s.cfg.R s.encPins.dataIn) := by
  rw [State.encoderEdge_accept h1 hrst hvalid]; exact ⟨rfl, rfl⟩

/-- At either PIPE a transaction's codeword is observed after the edge. -/
theorem State.encObserved_of_accept (hP : s.cfg.encPIPE = 0 ∨ s.cfg.encPIPE = 1) (hrst : s.encPins.rst = false)
    (hvalid : s.encPins.inValid = true) : s.encoderEdge.encObserved = some (enc s.cfg.R s.encPins.dataIn) := by
  obtain h0 | h1 := hP
  · rw [State.encoderEdge_comb h0, State.encObserved_of_valid ((State.encOutValid_comb h0).trans hvalid),
      State.codeOut_comb h0]
  · obtain ⟨hv, hcode⟩ := State.encoderEdge_loaded h1 hrst hvalid
    have h1' : s.encoderEdge.cfg.encPIPE = 1 := by simpa
    rw [State.encObserved_of_valid ((State.encOutValid_reg h1').trans hv), State.codeOut_reg h1', hcode]

/-- An idle cycle, or a reset at PIPE = 1, leaves `out_valid` at 0. -/
theorem State.encOutValid_of_quiet (hP : s.cfg.encPIPE = 0 ∨ s.cfg.encPIPE = 1)
    (hquiet : s.encPins.inValid = false ∨ s.cfg.encPIPE = 1 ∧ s.encPins.rst = true) :
    s.encoderEdge.encOutValid = false := by
  obtain h0 | h1 := hP
  · have hvalid : s.encPins.inValid = false := hquiet.resolve_right fun h => by omega
    rw [State.encoderEdge_comb h0, State.encOutValid_comb h0, hvalid]
  · rw [State.encOutValid_reg (by simpa)]
    exact (State.encoderEdge_cleared h1 (hquiet.symm.imp_left And.right)).1

theorem State.clockEdge_encObserved (s : State) : s.clockEdge.encObserved = s.encoderEdge.encObserved := rfl

/-! ## The decoder -/

theorem State.decOutValid_comb (h0 : s.cfg.decPIPE = 0) : s.decOutValid = s.decInValid := if_pos h0

theorem State.decObserved_of_not_valid (h : s.decOutValid = false) : s.decObserved = none := by
  simp [State.decObserved, h]

theorem State.decObserved_of_loaded {r : DecResult} (h1 : s.cfg.decPIPE = 1) (h : s.decoderLoaded r) :
    s.decObserved = some r := by
  obtain ⟨hv, hdata, hcorr, hsyn⟩ := h
  simp [State.decObserved, State.decOutValid, State.decOut, h1, hv, hdata, hcorr, hsyn]

theorem State.decoderEdge_loaded (h1 : s.cfg.decPIPE = 1) (hrst : s.decRst = false) (hvalid : s.decInValid = true) :
    s.decoderEdge.decoderLoaded (dec s.cfg.R s.codeIn) := by
  rw [State.decoderEdge_accept h1 hrst hvalid]; exact ⟨rfl, rfl, rfl, rfl⟩

section
variable {rst : Bool}

theorem State.decInValid_driven {v : Bool} {c : Bits} (h : s.decPins = .driven rst v c) : s.decInValid = v := by
  simp [State.decInValid, h]

variable {flipAt : Option Nat} (h : s.decPins = .linked rst flipAt)
include h

theorem State.decInValid_linked : s.decInValid = s.encOutValid := by
  simp [State.decInValid, h]

theorem State.codeIn_linked : s.codeIn = linkWord s.cfg.R flipAt s.codeOut := by
  cases flipAt <;> simp [State.codeIn, h, linkWord]

/-- A linked decoder at PIPE = 0 shows DEC of what the encoder shows. -/
theorem State.decObserved_linked_comb (h0 : s.cfg.decPIPE = 0) :
    s.decObserved = s.encObserved.map fun c => dec s.cfg.R (linkWord s.cfg.R flipAt c) := by
  have hvalid : s.decOutValid = s.encOutValid := (State.decOutValid_comb h0).trans (State.decInValid_linked h)
  cases hv : s.encOutValid with
  | false => rw [State.decObserved_of_not_valid (hvalid.trans hv), State.encObserved_of_not_valid hv]; rfl
  | true =>
    have hout : s.decOut = dec s.cfg.R s.codeIn := if_pos h0
    rw [State.encObserved_of_valid hv, State.decObserved, if_pos (hvalid.trans hv), hout, State.codeIn_linked h]
    rfl

end

/-- Without reset a linked decoder goes idle at an edge before which the encoder's `out_valid` is 0. -/
theorem State.decoderEdge_linked_cleared {flipAt : Option Nat} (h1 : s.cfg.decPIPE = 1)
    (h : s.decPins = .linked false flipAt) (hv : s.encOutValid = false) : s.decoderCleared s.decoderEdge :=
  State.decoderEdge_cleared h1 (.inr ((State.decInValid_linked h).trans hv))

/-- Without reset a linked decoder loads DEC of the encoder's codeword at an edge before which its `out_valid` is 1. -/
theorem State.decoderEdge_linked_loaded {flipAt : Option Nat} (h1 : s.cfg.decPIPE = 1)
    (h : s.decPins = .linked false flipAt) (hv : s.encOutValid = true) :
    s.decoderEdge.decoderLoaded (dec s.cfg.R (linkWord s.cfg.R flipAt s.codeOut)) := by
  have hrst : s.decRst = false := by rw [State.decRst_eq, h]; rfl
  rw [← State.codeIn_linked h]
  exact State.decoderEdge_loaded h1 hrst ((State.decInValid_linked h).trans hv)

/-- The link carries the codeword with at most one bit inverted, so DEC of it is the data. -/
theorem dec_linkWord_enc {R : Nat} {d : Bits} {flipAt : Option Nat} (hd : d.length = dataK R)
    (hflip : ∀ pos ∈ flipAt, 1 ≤ pos ∧ pos ≤ codeN R) :
    dec R (linkWord R flipAt (enc R d)) =
      { data := d, corrected := flipAt.isSome, syndrome := bitsOfNat R (flipAt.getD 0) } := by
  obtain ⟨hsingle, hclean⟩ := decodeOfASingleError R d hd
  cases flipAt with
  | none => exact hclean
  | some pos =>
    obtain ⟨h1, h2⟩ := hflip pos rfl
    exact hsingle pos h1 h2

/-! ## Legal stimuli of the transaction lines (R45) -/

theorem lineEnc_legal {c : Config} {d : Bits} (hd : d.length = c.K) : EncDrive.legal c (lineEnc d) = true := by
  have hall := all_twoValued_ofBits d
  simp [EncDrive.legal, legalPorts, lineEnc, hd, hall, Logic.twoValued, Logic.toBool?]

theorem lineDec_legal {c : Config} {x : Bits} (hx : x.length = c.N) : DecDrive.legal c (lineDec x) = true := by
  have hall := all_twoValued_ofBits x
  simp [DecDrive.legal, legalPorts, lineDec, hx, hall, Logic.twoValued, Logic.toBool?]

theorem encIdle_legal {c : Config} {rst : Logic} {v : LogicVec} (hr : rst.twoValued = true ∨ c.encPIPE = 0)
    (hv : v.length = c.K) : EncDrive.legal c { rst := rst, inValid := .zero, dataIn := v } = true :=
  (legalPorts_iff .dataIn).mpr ⟨hv, nonBinaryPort_of_idle hr rfl⟩

theorem decIdle_legal {c : Config} {rst : Logic} {v : LogicVec} (hr : rst.twoValued = true ∨ c.decPIPE = 0)
    (hv : v.length = c.N) : DecDrive.legal c (.ports rst .zero v) = true :=
  (legalPorts_iff .codeIn).mpr ⟨hv, nonBinaryPort_of_idle hr rfl⟩

theorem flip_inRange_of_legal {c : Config} {rst : Logic} {flipAt : Option Nat}
    (h : DecDrive.legal c (.linked rst flipAt) = true) : ∀ pos ∈ flipAt, 1 ≤ pos ∧ pos ≤ c.N := by
  simp only [DecDrive.legal, Bool.and_eq_true] at h
  simpa [Option.all_eq_true] using h.2

end Sys2Proof.Machine
end

section
/-! An edge of one unit's own clock (R22, R76, R77, R81): reset, idle, and the link. -/

namespace Sys2Proof.Machine

section
variable {s : State} {rest : List Stimulus} (hc : s.cfg.Legal)
include hc

/-- At PIPE = 1 a reset or idle edge of the encoder alone clears `enc_v` and nothing else among the registers. -/
theorem step_encoder_quiet {e : EncDrive} (h1 : s.cfg.encPIPE = 1) (he : EncDrive.legal s.cfg e = true)
    (hquiet : e.rst = .one ∨ e.inValid = .zero) (hs : s.pending = .encoder e :: rest) :
    ∃ t, step s = .next t ∧ t.encV = false ∧ t.encCode = s.encCode ∧ t.encObserved = none ∧ t.cfg = s.cfg ∧
      t.decV = s.decV ∧ t.decData = s.decData ∧ t.decCorr = s.decCorr ∧ t.decSyn = s.decSyn := by
  obtain ⟨p, n, hp, hstep⟩ := step_encoder_of_legal hc he hs
  have hpins : p.rst = true ∨ p.inValid = false := hquiet.imp (hp.rst_eq_true h1) hp.inValid_eq_false
  obtain ⟨hv, hcode⟩ :=
    State.encoderEdge_cleared (s := (s.setPending rest).withInputs p s.decPins n) h1 hpins
  exact ⟨_, hstep, hv, hcode, encObserved_eq_none (by simpa) hv, by simp, by simp, by simp, by simp, by simp⟩

/-- At PIPE = 1 a reset or idle edge of the decoder alone clears `dec_v` and nothing else among the registers. -/
theorem step_decoder_quiet {rst inValid : Logic} {v : LogicVec} (h1 : s.cfg.decPIPE = 1)
    (hd : DecDrive.legal s.cfg (.ports rst inValid v) = true) (hquiet : rst = .one ∨ inValid = .zero)
    (hs : s.pending = .decoder (.ports rst inValid v) :: rest) :
    ∃ t, step s = .next t ∧ t.decV = false ∧ t.decData = s.decData ∧ t.decCorr = s.decCorr ∧
      t.decSyn = s.decSyn ∧ t.decObserved = none ∧ t.cfg = s.cfg ∧ t.encV = s.encV ∧ t.encCode = s.encCode := by
  obtain ⟨q, n, hq, hstep⟩ := step_decoder_of_legal hc hd hs
  cases hq with
  | @driven _ _ _ l hl =>
    have hpins : l.rst = true ∨ l.inValid = false := hquiet.imp (hl.rst_eq_true h1) hl.inValid_eq_false
    obtain ⟨hv, hdata, hcorr, hsyn⟩ := State.decoderEdge_cleared
      (s := (s.setPending rest).withInputs s.encPins (.driven l.rst l.inValid l.dataIn) n) h1 hpins
    exact ⟨_, hstep, hv, hdata, hcorr, hsyn, decObserved_eq_none (by simpa) hv, by simp, by simp, by simp⟩

end

/-- Settles O28: `rst` = 1 is looked at before `in_valid`, whatever is offered. -/
theorem resetEdgeWins : Obligations.ResetEdgeWins :=
  ⟨fun _ _ _ _ hc h1 he hs => step_encoder_quiet hc h1 he (.inl rfl) hs,
    fun _ _ _ _ hc h1 hd hs => step_decoder_quiet hc h1 hd (.inl rfl) hs⟩

/-- Settles O29: an idle cycle is legal with any vector, and its edge clears the valid register alone. -/
theorem idleEdgeHolds : Obligations.IdleEdgeHolds := by
  refine ⟨fun s v rest hc h1 hv hs => ?_, fun s v rest hc h1 hv hs => ?_⟩
  · obtain ⟨t, ht, hv, hcode, -, -, hdec⟩ :=
      step_encoder_quiet hc h1 (encIdle_legal (.inl rfl) hv) (.inr rfl) hs
    exact ⟨t, ht, hv, hcode, hdec⟩
  · obtain ⟨t, ht, hv, hdata, hcorr, hsyn, -, -, henc⟩ :=
      step_decoder_quiet hc h1 (decIdle_legal (.inl rfl) hv) (.inr rfl) hs
    exact ⟨t, ht, hv, hdata, hcorr, hsyn, henc⟩

/-- Settles O48: an edge of a linked decoder without reset follows the encoder's outputs before it. -/
theorem linkedDecoderFollowsTheEncoder : Obligations.LinkedDecoderFollowsTheEncoder := by
  intro s rst flipAt rest hc h1 hd hs
  obtain ⟨q, n, hq, hstep⟩ := step_decoder_of_legal hc hd hs
  set x := (s.setPending rest).withInputs s.encPins q n with hx
  have hobserved (hcl : s.decoderCleared x.decoderEdge) :
      s.decoderCleared x.decoderEdge ∧ x.decoderEdge.decObserved = none :=
    ⟨hcl, decObserved_eq_none (by simpa [hx]) hcl.1⟩
  have hlink (hrst : rst = .zero) : x.decPins = .linked false flipAt := (hrst ▸ hq).eq_of_linked_zero
  refine ⟨_, hstep, by simp [hx], by simp [hx], by simp [hx], by simp [hx], fun hrst => ?_, fun hrst hv => ?_,
    fun hrst hv => ?_⟩
  · have hreset : x.decRst = true := (State.decRst_eq x).trans (hq.rst_eq_true h1 hrst)
    exact hobserved (State.decoderEdge_cleared (s := x) h1 (.inl hreset))
  · exact hobserved (State.decoderEdge_linked_cleared (s := x) h1 (hlink hrst) hv)
  · exact State.decoderEdge_linked_loaded (s := x) h1 (hlink hrst) hv

end Sys2Proof.Machine
end

section
/-! A shared edge (R22, R76, R77, R81): each unit's half of it, and the link between them. -/

namespace Sys2Proof.Machine

/-- Settles O45: the encoder's half of a shared edge reads the encoder's ports alone. -/
theorem sharedEdgeUpdatesTheEncoder : Obligations.SharedEdgeUpdatesTheEncoder := by
  intro s e d rest hc h1 he hd hs
  obtain ⟨p, q, n, hp, -, hstep⟩ := step_both_of_legal hc he hd hs
  set x := (s.setPending rest).withInputs p q n with hx
  have hcleared (hpins : p.rst = true ∨ p.inValid = false) :
      s.encoderCleared x.clockEdge ∧ x.clockEdge.encObserved = none := by
    have hcl := State.encoderEdge_cleared (s := x) h1 hpins
    exact ⟨hcl, encObserved_eq_none (s := x.clockEdge) (by simpa [hx]) hcl.1⟩
  refine ⟨_, hstep, by simp [hx], by simp [hx], by simp [hx], fun hrst => hcleared (.inl (hp.rst_eq_true h1 hrst)),
    fun _ hvalid => hcleared (.inr (hp.inValid_eq_false hvalid)), fun d he => ?_⟩
  have hpins : p = { rst := false, inValid := true, dataIn := d } := (he ▸ hp).eq_of_transaction
  subst hpins
  exact State.encoderEdge_loaded (s := x) h1 rfl rfl

/-- Settles O46: the decoder's half of a shared edge reads the decoder's own ports where they are driven. -/
theorem sharedEdgeUpdatesTheDecoder : Obligations.SharedEdgeUpdatesTheDecoder := by
  intro s e d rest hc h1 he hd hs
  obtain ⟨p, q, n, -, hq, hstep⟩ := step_both_of_legal hc he hd hs
  set x := (s.setPending rest).withInputs p q n with hx
  have hcleared (hpins : x.decRst = true ∨ x.decInValid = false) :
      s.decoderCleared x.clockEdge ∧ x.clockEdge.decObserved = none := by
    have hcl := State.decoderEdge_cleared (s := x) h1 hpins
    exact ⟨hcl, decObserved_eq_none (s := x.clockEdge) (by simpa [hx]) hcl.1⟩
  refine ⟨_, hstep, by simp [hx], by simp [hx], by simp [hx], fun hrst => ?_, fun v hv => ?_, fun c hd => ?_⟩
  · exact hcleared (.inl ((State.decRst_eq x).trans (hq.rst_eq_true h1 hrst)))
  · subst hv
    obtain ⟨r, y, rfl⟩ := hq.eq_of_idle
    exact hcleared (.inr rfl)
  · subst hd
    obtain rfl := hq.eq_of_transaction
    exact State.decoderEdge_loaded (s := x) h1 rfl rfl

/-- Settles O47: the link reads the encoder's registers as they are before the edge, or at PIPE = 0 its ports. -/
theorem sharedEdgeSamplesTheLink : Obligations.SharedEdgeSamplesTheLink := by
  intro s e flipAt rest hc h1 he hd hs
  obtain ⟨p, q, n, hp, hq, hstep⟩ := step_both_of_legal hc he hd hs
  obtain rfl := hq.eq_of_linked_zero
  set x := (s.setPending rest).withInputs p (.linked false flipAt) n
  have hcleared (hv : x.encOutValid = false) : s.decoderCleared x.clockEdge ∧ x.clockEdge.decObserved = none := by
    have hcl := State.decoderEdge_linked_cleared (s := x) h1 rfl hv
    exact ⟨hcl, decObserved_eq_none (s := x.clockEdge) (by simpa) hcl.1⟩
  have hloaded := State.decoderEdge_linked_loaded (s := x) (flipAt := flipAt) h1 rfl
  refine ⟨_, hstep, fun hE hv => ?_, fun hE hv => ?_, fun hE hv => ?_, fun hE d he => ?_⟩
  · exact hcleared ((State.encOutValid_reg (s := x) hE).trans hv)
  · rw [State.encOutValid_reg (s := x) hE, State.codeOut_reg (s := x) hE] at hloaded
    exact hloaded hv
  · exact hcleared ((State.encOutValid_comb (s := x) hE).trans (hp.inValid_eq_false hv))
  · have hpins : p = { rst := false, inValid := true, dataIn := d } := (he ▸ hp).eq_of_transaction
    have hvalid : x.encPins.inValid = true := congrArg EncPins.inValid hpins
    have hdata : x.encPins.dataIn = d := congrArg EncPins.dataIn hpins
    rw [State.encOutValid_comb (s := x) hE, State.codeOut_comb (s := x) hE, hdata] at hloaded
    exact hloaded hvalid

end Sys2Proof.Machine
end

section
/-! Two transactions on one shared edge (R22, R25, R30): the edge is both units' edges, in either order. -/

namespace Sys2Proof.Machine

theorem driveEncoderPorts_lineEnc {s : State} {d : Bits} (hc : s.cfg.Legal) (hd : d.length = s.cfg.K) :
    driveEncoderPorts (lineEnc d) s = .next (s.driveEncoder false true d) := by
  have hcheck : checkEncoder s.cfg (ofBits d).length = none := checkEncoder_of_legal hc (by simpa)
  have hread : readVector .dataIn s.cfg.K (ofBits d) = .ok d := readVector_eq_ok.mpr ⟨hd, rfl⟩
  have hone : readWire .inValid .one = .ok true := rfl
  simp only [driveEncoderPorts, lineEnc, hcheck, readRst_zero, hone, hread]

theorem driveDecoderPorts_lineDec {s : State} {c : Bits} (hc : s.cfg.Legal) (hlen : c.length = s.cfg.N) :
    driveDecoderPorts (lineDec c) s = .next (s.driveDecoder (.driven false true c)) := by
  have hcheck : checkDecoder s.cfg (ofBits c).length = none := checkDecoder_of_legal hc (by simpa)
  have hread : readVector .codeIn s.cfg.N (ofBits c) = .ok c := readVector_eq_ok.mpr ⟨hlen, rfl⟩
  have hone : readWire .inValid .one = .ok true := rfl
  simp only [driveDecoderPorts, lineDec, hcheck, readRst_zero, hone, hread]

theorem driveDecoder_encoderEdge (s : State) (q : DecPins) :
    s.encoderEdge.driveDecoder q = (s.driveDecoder q).encoderEdge := by
  unfold State.encoderEdge State.driveDecoder
  dsimp only
  split_ifs <;> rfl

section
variable {s : State} {r v : Bool} {c : Bits} (h : s.decPins = .driven r v c)
include h

/-- The edge of a driven decoder, in the levels that drive it. -/
theorem decoderEdge_of_driven :
    s.decoderEdge =
      if s.cfg.decPIPE = 0 then s
      else if r then { s with decV := false }
      else if v then s.loadDecoder (dec s.cfg.R c)
      else { s with decV := false } := by
  have hrst : s.decRst = r := by simp [State.decRst, h]
  have hcode : s.codeIn = c := by simp [State.codeIn, h]
  rw [State.decoderEdge, hrst, State.decInValid_driven h, hcode]

/-- A driven decoder does not look at the encoder's ports and registers. -/
theorem decoderEdge_setEncoder_of_driven (p : EncPins) (encV : Bool) (encCode : Bits) :
    ({ s with encPins := p, encV := encV, encCode := encCode } : State).decoderEdge =
      { s.decoderEdge with encPins := p, encV := encV, encCode := encCode } := by
  rw [decoderEdge_of_driven h,
    decoderEdge_of_driven (s := { s with encPins := p, encV := encV, encCode := encCode }) h]
  dsimp only
  split_ifs <;> rfl

theorem driveEncoder_decoderEdge_of_driven (rst inValid : Bool) (d : Bits) :
    s.decoderEdge.driveEncoder rst inValid d = (s.driveEncoder rst inValid d).decoderEdge := by
  simpa [State.driveEncoder] using
    (decoderEdge_setEncoder_of_driven h { rst := rst, inValid := inValid, dataIn := d } s.encV s.encCode).symm

/-- So beside a driven decoder the two units' edges give the shared edge in either order. -/
theorem decoderEdge_encoderEdge_of_driven : s.encoderEdge.decoderEdge = s.clockEdge := by
  rw [State.clockEdge_eq]
  unfold State.encoderEdge
  simp only [State.decoderEdge_cfg, State.decoderEdge_encPins]
  split_ifs
  · rfl
  · simpa using decoderEdge_setEncoder_of_driven h s.encPins false s.encCode
  · simpa using decoderEdge_setEncoder_of_driven h s.encPins true (enc s.cfg.R s.encPins.dataIn)
  · simpa using decoderEdge_setEncoder_of_driven h s.encPins false s.encCode

end

/-- Settles O27: the shared edge is the two edges one after the other, which commute where the decoder is driven. -/
theorem sharedEdgeRunsBothUnits : Obligations.SharedEdgeRunsBothUnits := by
  intro s d c rest hc hd hlen hs
  have hR : 2 ≤ s.cfg.R := hc.two_le_R
  have hstep : step s = .next
      (((s.setPending rest).driveEncoder false true d).driveDecoder (.driven false true c)).clockEdge := by
    rw [step_eq_present hs, present_both, driveEncoderPorts_lineEnc (s := s.setPending rest) hc hd, andThen_next,
      driveDecoderPorts_lineDec (s := (s.setPending rest).driveEncoder false true d) hc hlen, andThen_next]
  refine ⟨_, _, _, hstep, exec_encode hR hc.encPIPE_eq hd, ?_, exec_decode hR hc.decPIPE_eq hlen, ?_⟩
  · rw [exec_decode (by simpa) (by simpa using hc.decPIPE_eq) (by simpa), driveDecoder_encoderEdge,
      decoderEdge_encoderEdge_of_driven rfl]
  · rw [exec_encode (by simpa) (by simpa using hc.encPIPE_eq) (by simpa), driveEncoder_decoderEdge_of_driven rfl,
      ← State.clockEdge_eq]
    rfl

end Sys2Proof.Machine
end

section
/-! Sequences of steps (R31, R79, R81): back-to-back transactions, the chained pair, and boot. -/

namespace Sys2Proof.Machine

/-- If each of a list of stimuli steps and then shows its own result, the k-th result is out right after k + 1 steps. -/
theorem run_shows_results_in_order {α β : Type} {stim : α → Stimulus} {shows : State → Option β} {f : α → β}
    {ok : α → Prop} {c : Config}
    (hstep : ∀ (s : State) (x : α) (rest : List Stimulus), s.cfg = c → ok x → s.pending = stim x :: rest →
      ∃ t, step s = .next t ∧ shows t = some (f x))
    {xs : List α} {s : State} {rest : List Stimulus} {k : Nat} (hcfg : s.cfg = c) (hxs : ∀ x ∈ xs, ok x)
    (hs : s.pending = xs.map stim ++ rest) (hk : k < xs.length) :
    ∃ t, core.run (k + 1) s = .next t ∧ shows t = xs[k]?.map f := by
  induction xs generalizing s k with
  | nil => cases hk
  | cons x xs ih =>
    obtain ⟨hx, hxs⟩ := List.forall_mem_cons.mp hxs
    obtain ⟨t, ht, hshows⟩ := hstep s x (xs.map stim ++ rest) hcfg hx hs
    obtain ⟨htcfg, htpending⟩ := step_frame hs ht
    cases k with
    | zero => exact ⟨t, run_succ_of_step 0 ht, hshows⟩
    | succ k =>
      obtain ⟨u, hu, hresult⟩ := ih (htcfg.trans hcfg) hxs htpending (Nat.lt_of_succ_lt_succ hk)
      exact ⟨u, (run_succ_of_step (k + 1) ht).trans hu, hresult⟩

theorem step_lineEnc {s : State} {d : Bits} {rest : List Stimulus} (hc : s.cfg.Legal) (hd : d.length = s.cfg.K)
    (hs : s.pending = .encoder (lineEnc d) :: rest) :
    ∃ t, step s = .next t ∧ t.encObserved = some (enc s.cfg.R d) := by
  have hdecode : decodeWord s.cfg.R (encodeWord (.encode d)) = .ok (.encode d) :=
    decodeWord_encodeWord (beq_iff_eq.mpr hd)
  rw [stepRunsTheDecodedOperation.1 s (encodeWord (.encode d)) rest _ hs hdecode,
    exec_encode (s := s.setPending rest) hc.two_le_R hc.encPIPE_eq hd]
  exact ⟨_, rfl, encObserved_after_encode hc.encPIPE_eq⟩

theorem step_lineDec {s : State} {c : Bits} {rest : List Stimulus} (hc : s.cfg.Legal) (hlen : c.length = s.cfg.N)
    (hs : s.pending = .decoder (lineDec c) :: rest) :
    ∃ t, step s = .next t ∧ t.decObserved = some (dec s.cfg.R c) := by
  have hdecode : decodeWord s.cfg.R (encodeWord (.decode c)) = .ok (.decode c) :=
    decodeWord_encodeWord (beq_iff_eq.mpr hlen)
  rw [stepRunsTheDecodedOperation.1 s (encodeWord (.decode c)) rest _ hs hdecode,
    exec_decode (s := s.setPending rest) hc.two_le_R hc.decPIPE_eq hlen]
  exact ⟨_, rfl, decObserved_after_decode hc.decPIPE_eq⟩

/-- Settles O30: each step is one transaction, whose result is out after it. -/
theorem backToBackResultsInOrder : Obligations.BackToBackResultsInOrder := by
  refine ⟨fun s ds rest k hc _ hds hs hk => ?_, fun s cs rest k hc _ hcs hs hk => ?_⟩
  · exact run_shows_results_in_order (fun r d l hcfg hd hr => hcfg ▸ step_lineEnc (hcfg ▸ hc) (hcfg ▸ hd) hr)
      rfl hds hs hk
  · exact run_shows_results_in_order (fun r c l hcfg hx hr => hcfg ▸ step_lineDec (hcfg ▸ hc) (hcfg ▸ hx) hr)
      rfl hcs hs hk

theorem step_next_unique {s t u : State} (ht : step s = .next t) (hu : step s = .next u) : t = u :=
  Host.Outcome.next.inj (ht.symm.trans hu)

/-- Settles O31: the first edge loads the encoder, and at the second the linked decoder samples it. -/
theorem chainedUnitsDecodeTwoEdgesLater : Obligations.ChainedUnitsDecodeTwoEdgesLater := by
  intro s d v flipAt l rest hc hE hD hd hv hlink hl hs
  obtain ⟨t, ht, htcfg, -, htpending, -, -, hload⟩ :=
    sharedEdgeUpdatesTheEncoder s _ _ _ hc hE (lineEnc_legal hd) hl hs
  obtain ⟨htv, htcode⟩ := hload d rfl
  have hEt : t.cfg.encPIPE = 1 := htcfg ▸ hE
  have hDt : t.cfg.decPIPE = 1 := htcfg ▸ hD
  have hct : t.cfg.Legal := htcfg ▸ hc
  have hidle : EncDrive.legal t.cfg (lineEncIdle v) = true := htcfg ▸ encIdle_legal (.inl rfl) hv
  obtain ⟨u, hu, hucfg, -, -, -, huidle, -⟩ :=
    sharedEdgeUpdatesTheEncoder t _ _ _ hct hEt hidle (htcfg ▸ hlink) htpending
  obtain ⟨u', hu', -, hsample, -⟩ :=
    sharedEdgeSamplesTheLink t _ flipAt _ hct hDt hidle (htcfg ▸ hlink) htpending
  obtain rfl := step_next_unique hu hu'
  refine ⟨t, u, ht, hu, ?_, (huidle rfl rfl).2, ?_⟩
  · rw [State.encObserved_of_valid ((State.encOutValid_reg hEt).trans htv), State.codeOut_reg hEt, htcode]
  · rw [State.decObserved_of_loaded (hucfg ▸ hDt) (hsample hEt htv), htcode, htcfg,
      dec_linkWord_enc hd (flip_inRange_of_legal hlink)]

/-- Settles O33: the reset edge clears both valid registers, and the next edge loads both units. -/
theorem bootSequenceWorks : Obligations.BootSequenceWorks := by
  intro c w s d x v y hok hE hD hd hx hv hy
  obtain ⟨hc, rfl⟩ := elaborate_eq_ok hok
  have hrstE : EncDrive.legal c (lineEncRst .zero v) = true := encIdle_legal (.inl rfl) hv
  have hrstD : DecDrive.legal c (lineDecRst .zero y) = true := decIdle_legal (.inl rfl) hy
  obtain ⟨t, ht, htcfg, -, htpending, henc, -⟩ := sharedEdgeUpdatesTheEncoder
    ((State.powerUp c).setPending [.both (lineEncRst .zero v) (lineDecRst .zero y), .both (lineEnc d) (lineDec x)])
    _ _ _ hc hE hrstE hrstD rfl
  obtain ⟨t', ht', -, -, -, hdec, -⟩ := sharedEdgeUpdatesTheDecoder
    ((State.powerUp c).setPending [.both (lineEncRst .zero v) (lineDecRst .zero y), .both (lineEnc d) (lineDec x)])
    _ _ _ hc hD hrstE hrstD rfl
  obtain rfl := step_next_unique ht ht'
  have htcfg : t.cfg = c := htcfg
  subst htcfg
  obtain ⟨u, hu, hucfg, -, -, -, -, hloadE⟩ :=
    sharedEdgeUpdatesTheEncoder t _ _ _ hc hE (lineEnc_legal hd) (lineDec_legal hx) htpending
  obtain ⟨u', hu', -, -, -, -, -, hloadD⟩ :=
    sharedEdgeUpdatesTheDecoder t _ _ _ hc hD (lineEnc_legal hd) (lineDec_legal hx) htpending
  obtain rfl := step_next_unique hu hu'
  obtain ⟨huv, hucode⟩ := hloadE d rfl
  have hEu : u.cfg.encPIPE = 1 := hucfg ▸ hE
  refine ⟨t, u, ht, hu, (henc rfl).2, (hdec rfl).2, ?_, State.decObserved_of_loaded (hucfg ▸ hD) (hloadD x rfl)⟩
  rw [State.encObserved_of_valid ((State.encOutValid_reg hEu).trans huv), State.codeOut_reg hEu, hucode]

end Sys2Proof.Machine
end

section
/-! Units at PIPE = 0 (R19): idle inputs, and a linked decoder beside an encoder of either PIPE (R81). -/

namespace Sys2Proof.Machine

/-- Settles O49: `out_valid` at PIPE = 0 is `in_valid`, driven or from the encoder over the link. -/
theorem idleAtPipeZeroShowsNothing : Obligations.IdleAtPipeZeroShowsNothing := by
  refine ⟨fun s rst v rest hc h0 hv hs => ?_, fun s rst v rest hc h0 hv hs => ?_,
    fun s rst flipAt rest hc h0 hlink hvalid hs => ?_, fun s r rst v flipAt rest hc h0 he hlink hs => ?_⟩
  · have hshow : ∀ t : State, t.encOutValid = false → t.encOutValid = false ∧ t.encObserved = none :=
      fun t ht => ⟨ht, State.encObserved_of_not_valid ht⟩
    have hidle := encIdle_legal (rst := rst) (.inr h0) hv
    obtain hs | ⟨d, hd, hs⟩ := hs
    · obtain ⟨p, n, hp, hstep⟩ := step_encoder_of_legal hc hidle hs
      exact ⟨_, hstep, hshow _ (State.encOutValid_of_quiet (.inl h0) (.inl (hp.inValid_eq_false rfl)))⟩
    · obtain ⟨p, q, n, hp, -, hstep⟩ := step_both_of_legal hc hidle hd hs
      exact ⟨_, hstep, hshow _ (State.encOutValid_of_quiet (s := (s.setPending rest).withInputs p q n)
        (.inl h0) (.inl (hp.inValid_eq_false rfl)))⟩
  · have hidle := decIdle_legal (rst := rst) (.inr h0) hv
    have hshow : ∀ t : State, t.cfg = s.cfg → (∃ r x, t.decPins = .driven r false x) →
        t.decOutValid = false ∧ t.decObserved = none := by
      rintro t hcfg ⟨r, x, hpins⟩
      have hout : t.decOutValid = false :=
        (State.decOutValid_comb (hcfg ▸ h0)).trans (State.decInValid_driven hpins)
      exact ⟨hout, State.decObserved_of_not_valid hout⟩
    obtain hs | ⟨e, he, hs⟩ := hs
    · obtain ⟨q, n, hq, hstep⟩ := step_decoder_of_legal hc hidle hs
      exact ⟨_, hstep, hshow _ (by simp) (by simpa using hq.eq_of_idle)⟩
    · obtain ⟨p, q, n, -, hq, hstep⟩ := step_both_of_legal hc he hidle hs
      exact ⟨_, hstep, hshow _ (by simp) (by simpa using hq.eq_of_idle)⟩
  · obtain ⟨q, n, hq, hstep⟩ := step_decoder_of_legal hc hlink hs
    set x := (s.setPending rest).withInputs s.encPins q n
    obtain ⟨r, hpins⟩ : ∃ r, x.decPins = .linked r flipAt := hq.eq_of_linked
    have hout : x.decOutValid = false :=
      (State.decOutValid_comb (s := x) h0).trans ((State.decInValid_linked hpins).trans hvalid)
    rw [State.decoderEdge_comb (s := x) h0] at hstep
    exact ⟨_, hstep, hout, State.decObserved_of_not_valid hout⟩
  · obtain ⟨p, q, n, hp, hq, hstep⟩ := step_both_of_legal hc he hlink hs
    set x := (s.setPending rest).withInputs p q n with hx
    obtain ⟨r', hpins⟩ : ∃ r', x.clockEdge.decPins = .linked r' flipAt := by simpa [hx] using hq.eq_of_linked
    have hquiet : x.clockEdge.encOutValid = false :=
      State.encOutValid_of_quiet (s := x) hc.encPIPE_eq (.inl (hp.inValid_eq_false rfl))
    have hout : x.clockEdge.decOutValid = false :=
      (State.decOutValid_comb (by simpa [hx])).trans ((State.decInValid_linked hpins).trans hquiet)
    exact ⟨_, hstep, hout, State.decObserved_of_not_valid hout⟩

/-- Settles O52: a linked decoder at PIPE = 0 shows DEC of what the encoder shows in every state, so also in the state
that a step answers. -/
theorem combinationalLinkedDecoderShowsTheEncoder : Obligations.CombinationalLinkedDecoderShowsTheEncoder := by
  refine ⟨fun s rst flipAt h0 h => State.decObserved_linked_comb h h0,
    fun s rst flipAt rest hc h0 hlink hs => ?_, fun s e rst flipAt rest hc h0 he hlink hs => ?_⟩
  · obtain ⟨q, n, hq, hstep⟩ := step_decoder_of_legal hc hlink hs
    set x := (s.setPending rest).withInputs s.encPins q n with hx
    obtain ⟨r, hpins⟩ : ∃ r, x.decPins = .linked r flipAt := hq.eq_of_linked
    rw [State.decoderEdge_comb (s := x) h0] at hstep
    exact ⟨_, hstep, by simp [hx], by simp [hx], by simp [hx], by simp [hx], State.decObserved_linked_comb hpins h0⟩
  · obtain ⟨p, q, n, hp, hq, hstep⟩ := step_both_of_legal hc he hlink hs
    set x := (s.setPending rest).withInputs p q n with hx
    have hcfg : x.clockEdge.cfg = s.cfg := by simp [hx]
    obtain ⟨r, hpins⟩ : ∃ r, x.clockEdge.decPins = .linked r flipAt := by simpa [hx] using hq.eq_of_linked
    have hshow : x.clockEdge.decObserved =
        x.encoderEdge.encObserved.map fun c => dec s.cfg.R (linkWord s.cfg.R flipAt c) := by
      rw [State.decObserved_linked_comb hpins (hcfg ▸ h0), hcfg, State.clockEdge_encObserved]
    have hnone (hquiet : p.inValid = false ∨ s.cfg.encPIPE = 1 ∧ p.rst = true) : x.clockEdge.decObserved = none := by
      have hvalid := State.encOutValid_of_quiet (s := x) hc.encPIPE_eq hquiet
      rw [hshow, State.encObserved_of_not_valid hvalid]; rfl
    refine ⟨_, hstep, hcfg, hshow, fun d he => ?_, fun hvalid => hnone (.inl (hp.inValid_eq_false hvalid)),
      fun h1 hrst => hnone (.inr ⟨h1, hp.rst_eq_true h1 hrst⟩)⟩
    have hp : x.encPins = { rst := false, inValid := true, dataIn := d } := (he ▸ hp).eq_of_transaction
    rw [hshow, State.encObserved_of_accept (s := x) hc.encPIPE_eq (by rw [hp]) (by rw [hp]), hp]
    rfl

/-- Settles O32: the linked decoder shows DEC of the codeword that the encoder shows at once. -/
theorem combinationalChainDecodesAtOnce : Obligations.CombinationalChainDecodesAtOnce := by
  intro s d flipAt rest hc _ hD hd hlink hs
  obtain ⟨-, -, hboth⟩ := combinationalLinkedDecoderShowsTheEncoder
  obtain ⟨t, ht, -, -, haccept, -⟩ := hboth s _ _ _ _ hc hD (lineEnc_legal hd) hlink hs
  refine ⟨t, ht, ?_⟩
  rw [haccept d rfl, dec_linkWord_enc hd (flip_inRange_of_legal hlink)]

end Sys2Proof.Machine
end
